-- ==== Sys2Proof/Word.lean ====
section
/-!
DEFINITION. The bit vectors of the machine (00_scope.md R6, R8, R9): widths fixed by the source.
-/

namespace Sys2Proof

/-- A register value, an address or a result: 64 bits (R6 `XLEN`, R9). -/
abbrev Word := BitVec 64

/-- The addressable unit: one byte of 8 bits (R6). -/
abbrev Byte := BitVec 8

/-- An instruction word: 32 bits, fixed (R6 `ILEN`, R70). -/
abbrev Insn := BitVec 32

/-- A register number as the instruction word holds it: 5 bits (R6, R20). -/
abbrev Reg := BitVec 5

end Sys2Proof
end

