-- ==== Sys2Proof/Config.lean ====
section
/-!
DEFINITION. The parameters of the step that are not state of the machine (00_scope.md R7, 10_state.md R34), as plain
data, and what an unlisted byte of memory reads as.
-/

namespace Sys2Proof.Config

/-- A stretch of memory: the `size` bytes from `base` on. -/
structure Region where
  base : Nat
  size : Nat
deriving DecidableEq, Repr

/-- What the host fixes for a run and no step changes (R7, R34, R247). -/
structure Platform where
  /-- `HALT_PC`: the address at which a run is said to end (R7, R246). -/
  haltPc : Word
  /-- `MEM_VALID`: the regions whose addresses hold memory (R7, R51). -/
  valid  : List Region
deriving DecidableEq, Repr

/-- The default of R7 and R51: every one of the 2^64 addresses holds memory. -/
def wholeSpace : List Region := [⟨0, 2 ^ 64⟩]

/-- What an address that memory does not list reads as. DESIGN CHOICE (unsafe), log 3: the spec leaves `MEM_INIT` open. -/
def unlistedByte : Byte := 0#8

/-- `HALT_PC` in `State.reset`. DESIGN CHOICE (unsafe), log 5: no multiple of 4, so that no aligned pc meets it. -/
def defaultHaltPc : Word := 0xFFFFFFFFFFFFFFFF#64

/-- `RESET_PC` in `State.reset`. DESIGN CHOICE (unsafe), log 2. -/
def defaultResetPc : Word := 0#64

/-- `XINIT` in `State.reset`, the same for `x1` to `x31`. DESIGN CHOICE (unsafe), log 1. -/
def defaultXInit : Word := 0#64

end Sys2Proof.Config
end

