-- ==== Sys2Proof/Machine/State.lean ====
section
/-!
DEFINITION. The state of the machine (10_state.md R20 to R34), as plain data, and the state a run starts from (R33, R240).
-/

namespace Sys2Proof.Machine

open Sys2Proof.Config

/-- `Mem` (R30): the bytes that differ from `Config.unlistedByte`, with their addresses. -/
abbrev Memory := List Host.Cell

/-- The canonical form of `Mem`: addresses strictly rising and below 2^64, no byte listed that an unlisted address
reads as. Equal memories are then equal lists. -/
def Memory.wf (m : Memory) : Bool :=
  decide (m.Pairwise fun c d => c.1 < d.1) && m.all fun c => decide (c.1 < 2 ^ 64) && c.2 != unlistedByte

/-- A set of byte addresses (`Written`, R31). -/
abbrev AddrSet := List Nat

/-- The canonical form of an address set: strictly rising and below 2^64. -/
def AddrSet.wf (l : AddrSet) : Bool :=
  decide (l.Pairwise fun a b => a < b) && l.all fun a => decide (a < 2 ^ 64)

/-- The faults of 60_exceptions.md R202, each with the information it records. -/
inductive FaultCause where
  /-- R204: the misaligned target of a taken branch or jump, or the misaligned pc of a fetch. -/
  | instructionAddressMisaligned (target : Word)
  /-- R205: a byte at the pc is no valid memory. -/
  | instructionAccessFault (pc : Word)
  /-- R203: the word matches no row of the opcode table. -/
  | illegalInstruction (word : Insn)
  /-- R206: a load past the top of memory or from an invalid byte. -/
  | loadAccessFault (ea : Word)
  /-- R207: a store past the top of memory or to an invalid byte. -/
  | storeAccessFault (ea : Word)
  /-- R208: a byte at the pc was written by a store of this run. -/
  | fetchAfterStore (pc : Word)
deriving DecidableEq, Repr

/-- The run status (R32). -/
inductive RunStatus where
  | running
  /-- The pc reached `HALT_PC` (R246). -/
  | halted
  /-- The instruction at `pc` raised a fault (R201); the three fields of 90_conflicts.md C15. -/
  | faulted (cause : FaultCause) (pc : Word)
deriving DecidableEq, Repr

/-- The tuple of R34, and beside it the parameters of the step that a run keeps fixed (log 4). -/
structure State where
  /-- `x1` to `x31`; `x0` has no storage (R21). Only `State.reg` and `State.setReg` touch this field. -/
  x        : Vector Word 31
  /-- The address of the instruction being executed (R24). -/
  pc       : Word
  /-- `Mem` (R30). -/
  mem      : Memory
  /-- `Written`: the addresses some store of this run wrote (R31). -/
  written  : AddrSet
  /-- The run status (R32). -/
  status   : RunStatus
  /-- `MEM_VALID` and `HALT_PC` (R7): the model's own field, changed by no step. -/
  platform : Platform
deriving DecidableEq, Repr

/-- What the host chooses before a run (R247). -/
structure Launch where
  /-- `RESET_PC` (R241). -/
  resetPc  : Word
  /-- `XINIT` (R33): the value of `x(k+1)` at index `k`. -/
  xInit    : Vector Word 31
  /-- `MEM_INIT` (R33), holding the program (R242). -/
  memInit  : Memory
  /-- `MEM_VALID` and `HALT_PC`. -/
  platform : Platform
deriving DecidableEq, Repr

/-- The state after reset for the host's choices, line by line as R33 and R240 give it. -/
def State.launch (l : Launch) : State where
  x        := l.xInit
  pc       := l.resetPc
  mem      := l.memInit
  written  := []
  status   := .running
  platform := l.platform

/-- The choices behind `State.reset`. DESIGN CHOICE (unsafe): the spec leaves each open (R7); logs 1, 2, 3 and 5. The
valid set is the spec's default (R51). -/
def Launch.default : Launch where
  resetPc  := defaultResetPc
  xInit    := Vector.replicate 31 defaultXInit
  memInit  := []
  platform := ⟨defaultHaltPc, wholeSpace⟩

/-- The machine right after reset. -/
def State.reset : State := State.launch Launch.default

/-- Why `step` has no next state: the run is over (R201, R246; log 6). The spec's own faults are `FaultCause`; raising one
is the next state R201 describes, whose status is `Faulted`. -/
inductive Fault where
  /-- Raised by `step` on a `Halted` state: a run that has ended normally has no next step (R246). Safe. -/
  | runHalted
  /-- Raised by `step` on a `Faulted` state, with what the status records: a faulted run never resumes (R201, R32). Safe. -/
  | runFaulted (cause : FaultCause) (pc : Word)
deriving DecidableEq, Repr

/-- Why the model gives an instruction no meaning. -/
inductive Refusal where
  /-- An arm of `exec` without a meaning; no arm raises it in this model. Safe. -/
  | notModelled (mnemonic : String)
deriving DecidableEq, Repr

end Sys2Proof.Machine
end

