-- ==== Sys2Proof/Machine/Ops.lean ====
section
/-!
DEFINITION. The named operations every meaning is built from: registers (10_state.md R20 to R26), memory
(20_memory.md R40 to R58), the fetch (R47), and raising a fault (60_exceptions.md R201).
-/

namespace Sys2Proof.Machine

open Sys2Proof.Config

/-- What an operation or an instruction answers. -/
abbrev Result := Host.Outcome State Fault Refusal

/-! ### Registers and pc -/

/-- `x[r]`: `x0` reads as 0 (R21). -/
def State.reg (s : State) (r : Reg) : Word :=
  if r = 0#5 then 0#64 else s.x[r.toNat - 1]'(by have := r.isLt; omega)

/-- `x[r] <- v`: a write to `x0` changes nothing (R21). -/
def State.setReg (s : State) (r : Reg) (v : Word) : State :=
  if r = 0#5 then s else { s with x := s.x.set (r.toNat - 1) v (by have := r.isLt; omega) }

/-- `pc <- t`. -/
def State.setPc (s : State) (t : Word) : State := { s with pc := t }

/-- `pc <- pc + 4`, modulo 2^64 (R25). -/
def State.advance (s : State) : State := s.setPc (s.pc + 4#64)

/-! ### Bytes of memory -/

/-- `Mem[a]` (R30). -/
def Memory.readByte : Memory → Nat → Byte
  | [], _ => unlistedByte
  | (k, v) :: rest, a => if k = a then v else Memory.readByte rest a

/-- The memory with nothing listed at `a`. -/
def Memory.erase (m : Memory) (a : Nat) : Memory := m.filter fun c => c.1 != a

/-- Lists the byte `v` at `a`, before the first higher address. -/
def Memory.list : Memory → Nat → Byte → Memory
  | [], a, v => [(a, v)]
  | (k, u) :: rest, a, v => if a < k then (a, v) :: (k, u) :: rest else (k, u) :: Memory.list rest a v

/-- `Mem[a] <- v`, in canonical form: the value an unlisted address reads as is not listed. -/
def Memory.writeByte (m : Memory) (a : Nat) (v : Byte) : Memory :=
  if v = unlistedByte then m.erase a else (m.erase a).list a v

/-- The `8n`-bit value of the `n` bytes from `a` on, little endian (R40, R45): `Mem[a]` is least significant. -/
def Memory.read (m : Memory) (a : Nat) : (n : Nat) → BitVec (8 * n)
  | 0 => 0#0
  | n + 1 => (Memory.read m (a + 1) n ++ m.readByte a : BitVec (8 * n + 8))

/-- `Mem[a+k] <- v[8k+7 : 8k]` for `k` in 0 to n-1, little endian (R40, R46). -/
def Memory.write (m : Memory) (a : Nat) {w : Nat} (v : BitVec w) : Nat → Memory
  | 0 => m
  | n + 1 => (Memory.write m a v n).writeByte (a + n) (v.extractLsb' (8 * n) 8)

/-! ### Address sets -/

/-- Adds one address. -/
def AddrSet.insert : AddrSet → Nat → AddrSet
  | [], a => [a]
  | b :: rest, a => if a < b then a :: b :: rest else if a = b then b :: rest else b :: AddrSet.insert rest a

/-- Adds the `n` addresses from `a` on (R46). -/
def AddrSet.insertRange (l : AddrSet) (a : Nat) : Nat → AddrSet
  | 0 => l
  | n + 1 => (AddrSet.insertRange l a n).insert (a + n)

/-- Takes out the `n` addresses from `a` on. -/
def AddrSet.eraseRange (l : AddrSet) (a n : Nat) : AddrSet := l.filter fun b => !(decide (a ≤ b) && decide (b < a + n))

/-- One of the `n` addresses from `a` on is in the set. -/
def AddrSet.meets (l : AddrSet) (a n : Nat) : Bool := (List.range n).any fun k => decide (a + k ∈ l)

/-! ### The memory primitives -/

/-- `MEM_VALID(a)` (R7, R51). -/
def memValid (p : Platform) (a : Nat) : Bool := p.valid.any fun r => decide (r.base ≤ a) && decide (a < r.base + r.size)

/-- All `n` addresses from `a` on hold memory. -/
def allValid (p : Platform) (a n : Nat) : Bool := (List.range n).all fun k => memValid p (a + k)

/-- An access to `n` bytes at `a` stays below 2^64 (R52) and touches valid bytes only (R51). -/
def accessible (p : Platform) (a : Word) (n : Nat) : Bool := decide (a.toNat + n ≤ 2 ^ 64) && allValid p a.toNat n

/-- `MemRead(a, n)` (R45): no alignment is asked for (R44). -/
def memRead (s : State) (a : Word) (n : Nat) : Except FaultCause (BitVec (8 * n)) :=
  if accessible s.platform a n then .ok (s.mem.read a.toNat n) else .error (.loadAccessFault a)

/-- `MemWrite(a, n, v)` (R46): all `n` bytes and their addresses in `Written`, or nothing. -/
def memWrite (s : State) (a : Word) (n : Nat) (v : BitVec (8 * n)) : Except FaultCause State :=
  if accessible s.platform a n then
    .ok { s with mem := s.mem.write a.toNat v n, written := s.written.insertRange a.toNat n }
  else .error (.storeAccessFault a)

/-- The address is no multiple of 4: `a[1:0] != 0b00` (R26). -/
def misaligned (a : Word) : Bool := a.extractLsb' 0 2 != 0b00#2

/-- `FetchWord(a)` (R47), its checks in the order of R209. -/
def fetchWord (s : State) (a : Word) : Except FaultCause Insn :=
  if misaligned a then .error (.instructionAddressMisaligned a)
  else if !allValid s.platform a.toNat 4 then .error (.instructionAccessFault a)
  else if s.written.meets a.toNat 4 then .error (.fetchAfterStore a)
  else .ok (s.mem.read a.toNat 4)

/-! ### Raising a fault -/

/-- `raise F(info)` (R201): the status records the fault and the address of the faulting instruction, and nothing else
changes. There is no return from a fault (R211). -/
def raise (cause : FaultCause) (s : State) : State := { s with status := .faulted cause s.pc }

/-- The exception code the RISC-V privileged specification gives the matching exception (R202, for orientation). -/
def faultCode : FaultCause → Option Nat
  | .instructionAddressMisaligned _ => some 0
  | .instructionAccessFault _ => some 1
  | .illegalInstruction _ => some 2
  | .loadAccessFault _ => some 5
  | .storeAccessFault _ => some 7
  | .fetchAfterStore _ => none

/-! ### The shapes of an instruction -/

/-- `x[rd] <- v; pc <- pc + 4`. -/
def retire (rd : Reg) (v : Word) (s : State) : Result := .next (s.setReg rd v).advance

/-- `x[rd] <- widen(MemRead(ea, n)); pc <- pc + 4` (R120 to R122). -/
def load (rd : Reg) (ea : Word) (n : Nat) (widen : BitVec (8 * n) → Word) (s : State) : Result :=
  match memRead s ea n with
  | .ok v => retire rd (widen v) s
  | .error cause => .next (raise cause s)

/-- `MemWrite(ea, n, v); pc <- pc + 4` (R120 to R122). -/
def store (ea : Word) (n : Nat) (v : BitVec (8 * n)) (s : State) : Result :=
  match memWrite s ea n v with
  | .ok t => .next t.advance
  | .error cause => .next (raise cause s)

/-- Goes to `target`, or raises `InstructionAddressMisaligned` on the instruction itself (R161, R171). -/
def jumpTo (target : Word) (s : State) : Result :=
  if misaligned target then .next (raise (.instructionAddressMisaligned target) s) else .next (s.setPc target)

/-- A conditional branch (R160, R161): an untaken one never looks at its target. -/
def branchIf (taken : Bool) (target : Word) (s : State) : Result :=
  if taken then jumpTo target s else .next s.advance

/-- `x[rd] <- pc + 4; pc <- target`, unless the target is misaligned: then neither (R170, R171). -/
def jumpAndLink (rd : Reg) (target : Word) (s : State) : Result :=
  if misaligned target then .next (raise (.instructionAddressMisaligned target) s)
  else .next ((s.setReg rd (s.pc + 4#64)).setPc target)

/-! ### What the host does before a run -/

/-- Loads a word at `a` as part of `MEM_INIT` (R242): little endian (R41), and no store of the run (R31). -/
def State.placeWord (s : State) (a : Word) (w : Insn) : State :=
  { s with mem := s.mem.write a.toNat w 4, written := s.written.eraseRange a.toNat 4 }

end Sys2Proof.Machine
end

