-- ==== Sys2Proof/Machine/Operands.lean ====
section
/-!
DEFINITION. The operand forms (30_encoding.md R78 to R83, R98): immediates extended to 64 bits, shift amounts, effective
addresses and targets.
-/

namespace Sys2Proof.Machine

/-- `immI`: sign-extended (R78). -/
def immI (imm : BitVec 12) : Word := imm.signExtend 64

/-- `immS`: sign-extended (R79). -/
def immS (imm : BitVec 12) : Word := imm.signExtend 64

/-- `immB`: the byte offset itself, sign-extended (R80). -/
def immB (offset : BitVec 13) : Word := offset.signExtend 64

/-- `immJ`: the byte offset itself, sign-extended (R81). -/
def immJ (offset : BitVec 21) : Word := offset.signExtend 64

/-- `immU`: the field at bits 31:12, zeros below, sign-extended (R82). -/
def immU (imm20 : BitVec 20) : Word := (imm20 ++ 0#12).signExtend 64

/-- The amount of a register shift: the low six bits (R151). -/
def shiftAmount (v : Word) : Nat := (v.extractLsb' 0 6).toNat

/-- The amount of an immediate shift (R83). -/
def shamtAmount (shamt : BitVec 6) : Nat := shamt.toNat

/-- `x[rs1] + immI`: the address of a load, the sum of `jalr` (R53, R120). -/
def loadAddress (s : State) (rs1 : Reg) (imm : BitVec 12) : Word := s.reg rs1 + immI imm

/-- `x[rs1] + immS`: the address of a store (R53, R120). -/
def storeAddress (s : State) (rs1 : Reg) (imm : BitVec 12) : Word := s.reg rs1 + immS imm

/-- `pc + immB` (R160). -/
def branchTarget (s : State) (offset : BitVec 13) : Word := s.pc + immB offset

/-- `pc + immJ` (R173). -/
def jalTarget (s : State) (offset : BitVec 21) : Word := s.pc + immJ offset

/-- `(x[rs1] + immI) & 0xFFFFFFFFFFFFFFFE` (R174). -/
def jalrTarget (s : State) (rs1 : Reg) (imm : BitVec 12) : Word := loadAddress s rs1 imm &&& 0xFFFFFFFFFFFFFFFE#64

end Sys2Proof.Machine
end

