-- ==== Sys2Proof/Machine/Arithmetic.lean ====
section
/-!
DEFINITION. The arithmetic instructions (40_arithmetic.md R110 to R114).
-/

namespace Sys2Proof.Machine

/-- `add` (R111): modulo 2^64, no flag, no trap (R110). -/
def execAdd (rd rs1 rs2 : Reg) (s : State) : Result := retire rd (s.reg rs1 + s.reg rs2) s

/-- `sub` (R112). -/
def execSub (rd rs1 rs2 : Reg) (s : State) : Result := retire rd (s.reg rs1 - s.reg rs2) s

/-- `addi` (R113). -/
def execAddi (rd rs1 : Reg) (imm : BitVec 12) (s : State) : Result := retire rd (s.reg rs1 + immI imm) s

/-- `auipc` (R114): `pc` is this instruction's address. -/
def execAuipc (rd : Reg) (imm20 : BitVec 20) (s : State) : Result := retire rd (s.pc + immU imm20) s

end Sys2Proof.Machine
end

