-- ==== Sys2Proof/Machine/Flags.lean ====
section
/-!
DEFINITION. The conditions branches and compares evaluate. The hardware has no flags (10_state.md R27): a condition is
evaluated in the instruction, exactly, on the signed or unsigned readings of 00_scope.md R9 (R162, R184).
-/

namespace Sys2Proof.Machine

/-- `a == b`, all 64 bits (R162). -/
def condEq (a b : Word) : Bool := a == b

/-- `a <s b`: `s(a) < s(b)` (R9, R162). -/
def condLtS (a b : Word) : Bool := decide (a.toInt < b.toInt)

/-- `a <u b`: `u(a) < u(b)` (R9, R162). -/
def condLtU (a b : Word) : Bool := decide (a.toNat < b.toNat)

/-- The value a compare instruction writes: the 64-bit integer 1 or 0 (R184). -/
def boolWord (c : Bool) : Word := if c then 1#64 else 0#64

end Sys2Proof.Machine
end

