-- ==== Sys2Proof/Machine/Branch.lean ====
section
/-!
DEFINITION. The conditional branches (44_conditional_branch.md R160 to R168).
-/

namespace Sys2Proof.Machine

/-- `beq` (R163). -/
def execBeq (rs1 rs2 : Reg) (offset : BitVec 13) (s : State) : Result :=
  branchIf (condEq (s.reg rs1) (s.reg rs2)) (branchTarget s offset) s

/-- `bne` (R164). -/
def execBne (rs1 rs2 : Reg) (offset : BitVec 13) (s : State) : Result :=
  branchIf (!condEq (s.reg rs1) (s.reg rs2)) (branchTarget s offset) s

/-- `blt` (R165): signed. -/
def execBlt (rs1 rs2 : Reg) (offset : BitVec 13) (s : State) : Result :=
  branchIf (condLtS (s.reg rs1) (s.reg rs2)) (branchTarget s offset) s

/-- `bge` (R166): signed. -/
def execBge (rs1 rs2 : Reg) (offset : BitVec 13) (s : State) : Result :=
  branchIf (!condLtS (s.reg rs1) (s.reg rs2)) (branchTarget s offset) s

/-- `bltu` (R167): unsigned. -/
def execBltu (rs1 rs2 : Reg) (offset : BitVec 13) (s : State) : Result :=
  branchIf (condLtU (s.reg rs1) (s.reg rs2)) (branchTarget s offset) s

/-- `bgeu` (R168): unsigned. -/
def execBgeu (rs1 rs2 : Reg) (offset : BitVec 13) (s : State) : Result :=
  branchIf (!condLtU (s.reg rs1) (s.reg rs2)) (branchTarget s offset) s

end Sys2Proof.Machine
end

