-- ==== Sys2Proof/Machine/Compare.lean ====
section
/-!
DEFINITION. The compare instructions (46_compare.md R180 to R184).
-/

namespace Sys2Proof.Machine

/-- `slt` (R180): signed. -/
def execSlt (rd rs1 rs2 : Reg) (s : State) : Result := retire rd (boolWord (condLtS (s.reg rs1) (s.reg rs2))) s

/-- `sltu` (R181): unsigned. -/
def execSltu (rd rs1 rs2 : Reg) (s : State) : Result := retire rd (boolWord (condLtU (s.reg rs1) (s.reg rs2))) s

/-- `slti` (R182): signed. -/
def execSlti (rd rs1 : Reg) (imm : BitVec 12) (s : State) : Result := retire rd (boolWord (condLtS (s.reg rs1) (immI imm))) s

/-- `sltiu` (R183): the immediate is sign-extended, then the comparison is unsigned. -/
def execSltiu (rd rs1 : Reg) (imm : BitVec 12) (s : State) : Result :=
  retire rd (boolWord (condLtU (s.reg rs1) (immI imm))) s

end Sys2Proof.Machine
end

