-- ==== Sys2Proof/Machine/DataTransfer.lean ====
section
/-!
DEFINITION. The data transfer instructions (41_data_transfer.md R120 to R134).
-/

namespace Sys2Proof.Machine

/-- `ld` (R123): a doubleword fills the register. -/
def execLd (rd rs1 : Reg) (imm : BitVec 12) (s : State) : Result :=
  load rd (loadAddress s rs1 imm) 8 (BitVec.setWidth 64) s

/-- `sd` (R124). -/
def execSd (rs2 rs1 : Reg) (imm : BitVec 12) (s : State) : Result :=
  store (storeAddress s rs1 imm) 8 ((s.reg rs2).extractLsb' 0 64) s

/-- `lw` (R125): sign-extended. -/
def execLw (rd rs1 : Reg) (imm : BitVec 12) (s : State) : Result :=
  load rd (loadAddress s rs1 imm) 4 (BitVec.signExtend 64) s

/-- `lwu` (R126): zero-extended. -/
def execLwu (rd rs1 : Reg) (imm : BitVec 12) (s : State) : Result :=
  load rd (loadAddress s rs1 imm) 4 (BitVec.setWidth 64) s

/-- `sw` (R127): the low word. -/
def execSw (rs2 rs1 : Reg) (imm : BitVec 12) (s : State) : Result :=
  store (storeAddress s rs1 imm) 4 ((s.reg rs2).extractLsb' 0 32) s

/-- `lh` (R128): sign-extended. -/
def execLh (rd rs1 : Reg) (imm : BitVec 12) (s : State) : Result :=
  load rd (loadAddress s rs1 imm) 2 (BitVec.signExtend 64) s

/-- `lhu` (R129): zero-extended. -/
def execLhu (rd rs1 : Reg) (imm : BitVec 12) (s : State) : Result :=
  load rd (loadAddress s rs1 imm) 2 (BitVec.setWidth 64) s

/-- `sh` (R130): the low halfword. -/
def execSh (rs2 rs1 : Reg) (imm : BitVec 12) (s : State) : Result :=
  store (storeAddress s rs1 imm) 2 ((s.reg rs2).extractLsb' 0 16) s

/-- `lb` (R131): sign-extended. -/
def execLb (rd rs1 : Reg) (imm : BitVec 12) (s : State) : Result :=
  load rd (loadAddress s rs1 imm) 1 (BitVec.signExtend 64) s

/-- `lbu` (R132): zero-extended. -/
def execLbu (rd rs1 : Reg) (imm : BitVec 12) (s : State) : Result :=
  load rd (loadAddress s rs1 imm) 1 (BitVec.setWidth 64) s

/-- `sb` (R133): the low byte. -/
def execSb (rs2 rs1 : Reg) (imm : BitVec 12) (s : State) : Result :=
  store (storeAddress s rs1 imm) 1 ((s.reg rs2).extractLsb' 0 8) s

/-- `lui` (R134): memory is not touched. -/
def execLui (rd : Reg) (imm20 : BitVec 20) (s : State) : Result := retire rd (immU imm20) s

end Sys2Proof.Machine
end

