-- ==== Sys2Proof/Machine/Jump.lean ====
section
/-!
DEFINITION. The unconditional branches (45_unconditional_branch.md R170 to R174).
-/

namespace Sys2Proof.Machine

/-- `jal` (R173). -/
def execJal (rd : Reg) (offset : BitVec 21) (s : State) : Result := jumpAndLink rd (jalTarget s offset) s

/-- `jalr` (R174): the target is formed from the old value of `rs1` (R170). -/
def execJalr (rd rs1 : Reg) (imm : BitVec 12) (s : State) : Result := jumpAndLink rd (jalrTarget s rs1 imm) s

end Sys2Proof.Machine
end

