-- ==== Sys2Proof/Machine/Logical.lean ====
section
/-!
DEFINITION. The logical instructions (42_logical.md R140 to R146): the immediate is sign-extended first (R140).
-/

namespace Sys2Proof.Machine

/-- `and` (R141). -/
def execAnd (rd rs1 rs2 : Reg) (s : State) : Result := retire rd (s.reg rs1 &&& s.reg rs2) s

/-- `or` (R142). -/
def execOr (rd rs1 rs2 : Reg) (s : State) : Result := retire rd (s.reg rs1 ||| s.reg rs2) s

/-- `xor` (R143). -/
def execXor (rd rs1 rs2 : Reg) (s : State) : Result := retire rd (s.reg rs1 ^^^ s.reg rs2) s

/-- `andi` (R144). -/
def execAndi (rd rs1 : Reg) (imm : BitVec 12) (s : State) : Result := retire rd (s.reg rs1 &&& immI imm) s

/-- `ori` (R145). -/
def execOri (rd rs1 : Reg) (imm : BitVec 12) (s : State) : Result := retire rd (s.reg rs1 ||| immI imm) s

/-- `xori` (R146). -/
def execXori (rd rs1 : Reg) (imm : BitVec 12) (s : State) : Result := retire rd (s.reg rs1 ^^^ immI imm) s

end Sys2Proof.Machine
end

