-- ==== Sys2Proof/Machine/Shift.lean ====
section
/-!
DEFINITION. The shift instructions (43_shift.md R150 to R157).
-/

namespace Sys2Proof.Machine

/-- `sll` (R152): zeros enter from the right (R150). -/
def execSll (rd rs1 rs2 : Reg) (s : State) : Result := retire rd (s.reg rs1 <<< shiftAmount (s.reg rs2)) s

/-- `srl` (R153): zeros enter at the top (R150). -/
def execSrl (rd rs1 rs2 : Reg) (s : State) : Result := retire rd (s.reg rs1 >>> shiftAmount (s.reg rs2)) s

/-- `sra` (R154): copies of bit 63 enter at the top (R150). -/
def execSra (rd rs1 rs2 : Reg) (s : State) : Result :=
  retire rd ((s.reg rs1).sshiftRight (shiftAmount (s.reg rs2))) s

/-- `slli` (R155). -/
def execSlli (rd rs1 : Reg) (shamt : BitVec 6) (s : State) : Result := retire rd (s.reg rs1 <<< shamtAmount shamt) s

/-- `srli` (R156). -/
def execSrli (rd rs1 : Reg) (shamt : BitVec 6) (s : State) : Result := retire rd (s.reg rs1 >>> shamtAmount shamt) s

/-- `srai` (R157). -/
def execSrai (rd rs1 : Reg) (shamt : BitVec 6) (s : State) : Result :=
  retire rd ((s.reg rs1).sshiftRight (shamtAmount shamt)) s

end Sys2Proof.Machine
end

