-- ==== Sys2Proof/Syntax.lean ====
section
/-!
DEFINITION. The 40 instructions of spec/opcode_table.json (00_scope.md R3), one constructor per row, with the operands
of 30_encoding.md R72 to R83 in the order of the assembler syntax (R101).
-/

namespace Sys2Proof

/-- An instruction. Immediates are held at the width the encoding gives them, before extension (R78 to R83); the
offset of a branch is the whole 13-bit `immB` and that of `jal` the whole 21-bit `immJ`, bit 0 included (R80, R81). -/
inductive Instr where
  -- Arithmetic (40_arithmetic.md)
  | add   (rd rs1 rs2 : Reg)
  | sub   (rd rs1 rs2 : Reg)
  | addi  (rd rs1 : Reg) (imm : BitVec 12)
  | auipc (rd : Reg) (imm20 : BitVec 20)
  -- Data transfer (41_data_transfer.md)
  | ld    (rd rs1 : Reg) (imm : BitVec 12)
  | sd    (rs2 rs1 : Reg) (imm : BitVec 12)
  | lw    (rd rs1 : Reg) (imm : BitVec 12)
  | lwu   (rd rs1 : Reg) (imm : BitVec 12)
  | sw    (rs2 rs1 : Reg) (imm : BitVec 12)
  | lh    (rd rs1 : Reg) (imm : BitVec 12)
  | lhu   (rd rs1 : Reg) (imm : BitVec 12)
  | sh    (rs2 rs1 : Reg) (imm : BitVec 12)
  | lb    (rd rs1 : Reg) (imm : BitVec 12)
  | lbu   (rd rs1 : Reg) (imm : BitVec 12)
  | sb    (rs2 rs1 : Reg) (imm : BitVec 12)
  | lui   (rd : Reg) (imm20 : BitVec 20)
  -- Logical (42_logical.md)
  | and   (rd rs1 rs2 : Reg)
  | or    (rd rs1 rs2 : Reg)
  | xor   (rd rs1 rs2 : Reg)
  | andi  (rd rs1 : Reg) (imm : BitVec 12)
  | ori   (rd rs1 : Reg) (imm : BitVec 12)
  | xori  (rd rs1 : Reg) (imm : BitVec 12)
  -- Shift (43_shift.md)
  | sll   (rd rs1 rs2 : Reg)
  | srl   (rd rs1 rs2 : Reg)
  | sra   (rd rs1 rs2 : Reg)
  | slli  (rd rs1 : Reg) (shamt : BitVec 6)
  | srli  (rd rs1 : Reg) (shamt : BitVec 6)
  | srai  (rd rs1 : Reg) (shamt : BitVec 6)
  -- Conditional branch (44_conditional_branch.md)
  | beq   (rs1 rs2 : Reg) (offset : BitVec 13)
  | bne   (rs1 rs2 : Reg) (offset : BitVec 13)
  | blt   (rs1 rs2 : Reg) (offset : BitVec 13)
  | bge   (rs1 rs2 : Reg) (offset : BitVec 13)
  | bltu  (rs1 rs2 : Reg) (offset : BitVec 13)
  | bgeu  (rs1 rs2 : Reg) (offset : BitVec 13)
  -- Unconditional branch (45_unconditional_branch.md)
  | jal   (rd : Reg) (offset : BitVec 21)
  | jalr  (rd rs1 : Reg) (imm : BitVec 12)
  -- Compare (46_compare.md)
  | slt   (rd rs1 rs2 : Reg)
  | sltu  (rd rs1 rs2 : Reg)
  | slti  (rd rs1 : Reg) (imm : BitVec 12)
  | sltiu (rd rs1 : Reg) (imm : BitVec 12)
deriving DecidableEq, Repr

/-- The register an instruction names as its destination (R71). -/
def Instr.destination : Instr → Option Reg
  | .add rd _ _ | .sub rd _ _ | .addi rd _ _ | .auipc rd _
  | .ld rd _ _ | .lw rd _ _ | .lwu rd _ _ | .lh rd _ _ | .lhu rd _ _ | .lb rd _ _ | .lbu rd _ _ | .lui rd _
  | .and rd _ _ | .or rd _ _ | .xor rd _ _ | .andi rd _ _ | .ori rd _ _ | .xori rd _ _
  | .sll rd _ _ | .srl rd _ _ | .sra rd _ _ | .slli rd _ _ | .srli rd _ _ | .srai rd _ _
  | .jal rd _ | .jalr rd _ _
  | .slt rd _ _ | .sltu rd _ _ | .slti rd _ _ | .sltiu rd _ _ => some rd
  | .sd .. | .sw .. | .sh .. | .sb .. | .beq .. | .bne .. | .blt .. | .bge .. | .bltu .. | .bgeu .. => none

/-- The instruction is one of the four stores (R30, R48). -/
def Instr.isStore : Instr → Bool
  | .sd .. | .sw .. | .sh .. | .sb .. => true
  | .add .. | .sub .. | .addi .. | .auipc .. | .ld .. | .lw .. | .lwu .. | .lh .. | .lhu .. | .lb .. | .lbu .. | .lui ..
  | .and .. | .or .. | .xor .. | .andi .. | .ori .. | .xori ..
  | .sll .. | .srl .. | .sra .. | .slli .. | .srli .. | .srai ..
  | .beq .. | .bne .. | .blt .. | .bge .. | .bltu .. | .bgeu .. | .jal .. | .jalr ..
  | .slt .. | .sltu .. | .slti .. | .sltiu .. => false

end Sys2Proof
end

