-- ==== Sys2Proof/WellFormed.lean ====
section
/-!
DEFINITION. Which terms of `Instr` some 32-bit word encodes. The widths of the operands' types carry every range of
30_encoding.md R103; what is left to check is that a branch or jump offset is even (R80, R81, R104).
-/

namespace Sys2Proof

/-- An offset is even: the B and J formats hold no `imm[0]` (R76, R77). -/
def evenOffset {w : Nat} (offset : BitVec w) : Bool := !offset.getLsbD 0

/-- Some word encodes the instruction. Every register number, immediate pattern and shift amount is legal (R91). -/
def Instr.wellFormed : Instr → Bool
  | .beq _ _ offset  => evenOffset offset
  | .bne _ _ offset  => evenOffset offset
  | .blt _ _ offset  => evenOffset offset
  | .bge _ _ offset  => evenOffset offset
  | .bltu _ _ offset => evenOffset offset
  | .bgeu _ _ offset => evenOffset offset
  | .jal _ offset    => evenOffset offset
  | .add .. | .sub .. | .addi .. | .auipc ..
  | .ld .. | .sd .. | .lw .. | .lwu .. | .sw .. | .lh .. | .lhu .. | .sh .. | .lb .. | .lbu .. | .sb .. | .lui ..
  | .and .. | .or .. | .xor .. | .andi .. | .ori .. | .xori ..
  | .sll .. | .srl .. | .sra .. | .slli .. | .srli .. | .srai ..
  | .jalr .. | .slt .. | .sltu .. | .slti .. | .sltiu .. => true

end Sys2Proof
end

