-- ==== Sys2Proof/Decode.lean ====
section
/-!
DEFINITION. From bits to an instruction or a refusal by name, and back (30_encoding.md R70 to R97). The fields are cut
out of the word here and nowhere else.
-/

namespace Sys2Proof

/-! ### Fields (R71 to R77) -/

def fieldOpcode (w : Insn) : BitVec 7 := w.extractLsb' 0 7
def fieldRd (w : Insn) : Reg := w.extractLsb' 7 5
def fieldFunct3 (w : Insn) : BitVec 3 := w.extractLsb' 12 3
def fieldRs1 (w : Insn) : Reg := w.extractLsb' 15 5
def fieldRs2 (w : Insn) : Reg := w.extractLsb' 20 5
def fieldFunct7 (w : Insn) : BitVec 7 := w.extractLsb' 25 7
/-- `funct6` of the immediate shifts (R73, 90_conflicts.md C3). -/
def fieldFunct6 (w : Insn) : BitVec 6 := w.extractLsb' 26 6
/-- `shamt` of the immediate shifts, 6 bits (R83, 90_conflicts.md C2). -/
def fieldShamt (w : Insn) : BitVec 6 := w.extractLsb' 20 6
/-- The 12 bits of `immI` (R78). -/
def fieldImmI (w : Insn) : BitVec 12 := w.extractLsb' 20 12
/-- The 12 bits of `immS` (R79). -/
def fieldImmS (w : Insn) : BitVec 12 := w.extractLsb' 25 7 ++ w.extractLsb' 7 5
/-- The 13 bits of `immB`, bit 0 zero (R80). -/
def fieldImmB (w : Insn) : BitVec 13 :=
  w.extractLsb' 31 1 ++ w.extractLsb' 7 1 ++ w.extractLsb' 25 6 ++ w.extractLsb' 8 4 ++ 0#1
/-- The 21 bits of `immJ`, bit 0 zero (R81). -/
def fieldImmJ (w : Insn) : BitVec 21 :=
  w.extractLsb' 31 1 ++ w.extractLsb' 12 8 ++ w.extractLsb' 20 1 ++ w.extractLsb' 21 10 ++ 0#1
/-- The 20 bits of `immU`, as they stand in the word (R82). -/
def fieldImmU (w : Insn) : BitVec 20 := w.extractLsb' 12 20

/-! ### Refusals by name (R95, R96) -/

/-- Instructions a full RV64I core or an extension executes and this hardware does not have (R4, R96, R211, R213). -/
inductive Excluded where
  | addiw | slliw | srliw | sraiw
  | addw | subw | sllw | srlw | sraw
  | fence | fenceI
  | ecall | ebreak
  /-- A control and status register access (Zicsr). -/
  | csr
  /-- A multiply or divide (M). -/
  | mulDiv
  /-- Another word with the SYSTEM opcode (`mret`, `sret`, `uret`, `wfi` are among them: R211, R213). -/
  | otherSystem
deriving DecidableEq, Repr

/-- Why a word, or a list of bytes, is no instruction. -/
inductive Reject where
  /-- The word of an instruction the spec excludes by name (R96). -/
  | excluded (name : Excluded)
  /-- A word that matches no row of the opcode table and has no name in R96 (R95). -/
  | unassigned
  /-- Fewer than the 4 bytes of an instruction (R70); a fetch never gives so few. -/
  | truncated
deriving DecidableEq, Repr

/-- The name R96 gives a word that matches no row. The fault is `IllegalInstruction` whatever the name (R203). -/
def rejectName (w : Insn) : Reject :=
  if fieldOpcode w = 0b0011011#7 then
    if fieldFunct3 w = 0b000#3 then .excluded .addiw
    else if fieldFunct3 w = 0b001#3 ∧ fieldFunct7 w = 0b0000000#7 then .excluded .slliw
    else if fieldFunct3 w = 0b101#3 ∧ fieldFunct7 w = 0b0000000#7 then .excluded .srliw
    else if fieldFunct3 w = 0b101#3 ∧ fieldFunct7 w = 0b0100000#7 then .excluded .sraiw
    else .unassigned
  else if fieldOpcode w = 0b0111011#7 then
    if fieldFunct7 w = 0b0000001#7 then .excluded .mulDiv
    else if fieldFunct3 w = 0b000#3 ∧ fieldFunct7 w = 0b0000000#7 then .excluded .addw
    else if fieldFunct3 w = 0b000#3 ∧ fieldFunct7 w = 0b0100000#7 then .excluded .subw
    else if fieldFunct3 w = 0b001#3 ∧ fieldFunct7 w = 0b0000000#7 then .excluded .sllw
    else if fieldFunct3 w = 0b101#3 ∧ fieldFunct7 w = 0b0000000#7 then .excluded .srlw
    else if fieldFunct3 w = 0b101#3 ∧ fieldFunct7 w = 0b0100000#7 then .excluded .sraw
    else .unassigned
  else if fieldOpcode w = 0b0110011#7 then
    if fieldFunct7 w = 0b0000001#7 then .excluded .mulDiv else .unassigned
  else if fieldOpcode w = 0b0001111#7 then
    if fieldFunct3 w = 0b000#3 then .excluded .fence
    else if fieldFunct3 w = 0b001#3 then .excluded .fenceI
    else .unassigned
  else if fieldOpcode w = 0b1110011#7 then
    if w = 0x00000073#32 then .excluded .ecall
    else if w = 0x00100073#32 then .excluded .ebreak
    else if fieldFunct3 w = 0b000#3 ∨ fieldFunct3 w = 0b100#3 then .excluded .otherSystem
    else .excluded .csr
  else .unassigned

/-! ### Decoding, group by group (R84 to R91) -/

/-- LOAD group (R87). -/
def decodeLoad (w : Insn) : Except Reject Instr :=
  match fieldFunct3 w with
  | 0b000#3 => .ok (.lb (fieldRd w) (fieldRs1 w) (fieldImmI w))
  | 0b001#3 => .ok (.lh (fieldRd w) (fieldRs1 w) (fieldImmI w))
  | 0b010#3 => .ok (.lw (fieldRd w) (fieldRs1 w) (fieldImmI w))
  | 0b011#3 => .ok (.ld (fieldRd w) (fieldRs1 w) (fieldImmI w))
  | 0b100#3 => .ok (.lbu (fieldRd w) (fieldRs1 w) (fieldImmI w))
  | 0b101#3 => .ok (.lhu (fieldRd w) (fieldRs1 w) (fieldImmI w))
  | 0b110#3 => .ok (.lwu (fieldRd w) (fieldRs1 w) (fieldImmI w))
  | _ => .error (rejectName w)

/-- OP-IMM group (R86): the shifts must match `funct6` too. -/
def decodeOpImm (w : Insn) : Except Reject Instr :=
  match fieldFunct3 w with
  | 0b000#3 => .ok (.addi (fieldRd w) (fieldRs1 w) (fieldImmI w))
  | 0b010#3 => .ok (.slti (fieldRd w) (fieldRs1 w) (fieldImmI w))
  | 0b011#3 => .ok (.sltiu (fieldRd w) (fieldRs1 w) (fieldImmI w))
  | 0b100#3 => .ok (.xori (fieldRd w) (fieldRs1 w) (fieldImmI w))
  | 0b110#3 => .ok (.ori (fieldRd w) (fieldRs1 w) (fieldImmI w))
  | 0b111#3 => .ok (.andi (fieldRd w) (fieldRs1 w) (fieldImmI w))
  | 0b001#3 =>
    if fieldFunct6 w = 0b000000#6 then .ok (.slli (fieldRd w) (fieldRs1 w) (fieldShamt w))
    else .error (rejectName w)
  | 0b101#3 =>
    if fieldFunct6 w = 0b000000#6 then .ok (.srli (fieldRd w) (fieldRs1 w) (fieldShamt w))
    else if fieldFunct6 w = 0b010000#6 then .ok (.srai (fieldRd w) (fieldRs1 w) (fieldShamt w))
    else .error (rejectName w)
  | _ => .error (rejectName w)

/-- STORE group (R88). -/
def decodeStore (w : Insn) : Except Reject Instr :=
  match fieldFunct3 w with
  | 0b000#3 => .ok (.sb (fieldRs2 w) (fieldRs1 w) (fieldImmS w))
  | 0b001#3 => .ok (.sh (fieldRs2 w) (fieldRs1 w) (fieldImmS w))
  | 0b010#3 => .ok (.sw (fieldRs2 w) (fieldRs1 w) (fieldImmS w))
  | 0b011#3 => .ok (.sd (fieldRs2 w) (fieldRs1 w) (fieldImmS w))
  | _ => .error (rejectName w)

/-- OP group (R85): all ten bits of `funct7` and `funct3` must match. -/
def decodeOp (w : Insn) : Except Reject Instr :=
  if fieldFunct7 w = 0b0000000#7 then
    match fieldFunct3 w with
    | 0b000#3 => .ok (.add (fieldRd w) (fieldRs1 w) (fieldRs2 w))
    | 0b001#3 => .ok (.sll (fieldRd w) (fieldRs1 w) (fieldRs2 w))
    | 0b010#3 => .ok (.slt (fieldRd w) (fieldRs1 w) (fieldRs2 w))
    | 0b011#3 => .ok (.sltu (fieldRd w) (fieldRs1 w) (fieldRs2 w))
    | 0b100#3 => .ok (.xor (fieldRd w) (fieldRs1 w) (fieldRs2 w))
    | 0b101#3 => .ok (.srl (fieldRd w) (fieldRs1 w) (fieldRs2 w))
    | 0b110#3 => .ok (.or (fieldRd w) (fieldRs1 w) (fieldRs2 w))
    | 0b111#3 => .ok (.and (fieldRd w) (fieldRs1 w) (fieldRs2 w))
    | _ => .error (rejectName w)
  else if fieldFunct7 w = 0b0100000#7 then
    match fieldFunct3 w with
    | 0b000#3 => .ok (.sub (fieldRd w) (fieldRs1 w) (fieldRs2 w))
    | 0b101#3 => .ok (.sra (fieldRd w) (fieldRs1 w) (fieldRs2 w))
    | _ => .error (rejectName w)
  else .error (rejectName w)

/-- BRANCH group (R89); its opcode is the one 90_conflicts.md C1 chooses. -/
def decodeBranch (w : Insn) : Except Reject Instr :=
  match fieldFunct3 w with
  | 0b000#3 => .ok (.beq (fieldRs1 w) (fieldRs2 w) (fieldImmB w))
  | 0b001#3 => .ok (.bne (fieldRs1 w) (fieldRs2 w) (fieldImmB w))
  | 0b100#3 => .ok (.blt (fieldRs1 w) (fieldRs2 w) (fieldImmB w))
  | 0b101#3 => .ok (.bge (fieldRs1 w) (fieldRs2 w) (fieldImmB w))
  | 0b110#3 => .ok (.bltu (fieldRs1 w) (fieldRs2 w) (fieldImmB w))
  | 0b111#3 => .ok (.bgeu (fieldRs1 w) (fieldRs2 w) (fieldImmB w))
  | _ => .error (rejectName w)

/-- JALR group (R90). -/
def decodeJalr (w : Insn) : Except Reject Instr :=
  if fieldFunct3 w = 0b000#3 then .ok (.jalr (fieldRd w) (fieldRs1 w) (fieldImmI w))
  else .error (rejectName w)

/-- The instruction a word is (R84, R91), or the name under which it is refused (R95, R96). -/
def decode (w : Insn) : Except Reject Instr :=
  match fieldOpcode w with
  | 0b0000011#7 => decodeLoad w
  | 0b0010011#7 => decodeOpImm w
  | 0b0010111#7 => .ok (.auipc (fieldRd w) (fieldImmU w))
  | 0b0100011#7 => decodeStore w
  | 0b0110011#7 => decodeOp w
  | 0b0110111#7 => .ok (.lui (fieldRd w) (fieldImmU w))
  | 0b1100011#7 => decodeBranch w
  | 0b1100111#7 => decodeJalr w
  | 0b1101111#7 => .ok (.jal (fieldRd w) (fieldImmJ w))
  | _ => .error (rejectName w)

/-! ### Bytes (R41) -/

/-- The word four bytes hold, the first at the lowest address and least significant (R41). -/
def wordOfBytes (b0 b1 b2 b3 : Byte) : Insn := b3 ++ b2 ++ b1 ++ b0

/-- Decodes the instruction at the head of a list of bytes and hands back the bytes after it. -/
def decodeBytes : List Byte → Except Reject (Instr × List Byte)
  | b0 :: b1 :: b2 :: b3 :: rest =>
    match decode (wordOfBytes b0 b1 b2 b3) with
    | .ok i => .ok (i, rest)
    | .error e => .error e
  | _ => .error .truncated

/-- The bytes of a word as memory holds them, lowest address first (R41). -/
def bytesOfWord (w : Insn) : List Byte :=
  [w.extractLsb' 0 8, w.extractLsb' 8 8, w.extractLsb' 16 8, w.extractLsb' 24 8]

/-- The low `nbits` bits of `w` as an instruction word; every bit above them is 0. -/
def tableWord (nbits w : Nat) : Insn := BitVec.ofNat 32 (w % 2 ^ nbits)

/-- What the decoder reads from the instruction whose bits are `w`; no instruction is longer than 32 bits (R70). -/
def decodeTableWord (nbits w : Nat) : Option Instr :=
  if nbits ≤ 32 then
    match decodeBytes (bytesOfWord (tableWord nbits w)) with
    | .ok (i, _) => some i
    | .error _ => none
  else none

/-! ### Encoding (R72 to R90) -/

/-- R-type (R72). -/
def encodeR (funct7 : BitVec 7) (rs2 rs1 : Reg) (funct3 : BitVec 3) (rd : Reg) (opcode : BitVec 7) : Insn :=
  funct7 ++ rs2 ++ rs1 ++ funct3 ++ rd ++ opcode

/-- I-type (R73). -/
def encodeI (imm : BitVec 12) (rs1 : Reg) (funct3 : BitVec 3) (rd : Reg) (opcode : BitVec 7) : Insn :=
  imm ++ rs1 ++ funct3 ++ rd ++ opcode

/-- The immediate-shift sub-form of the I-type (R73). -/
def encodeShift (funct6 shamt : BitVec 6) (rs1 : Reg) (funct3 : BitVec 3) (rd : Reg) : Insn :=
  funct6 ++ shamt ++ rs1 ++ funct3 ++ rd ++ 0b0010011#7

/-- U-type (R74). -/
def encodeU (imm20 : BitVec 20) (rd : Reg) (opcode : BitVec 7) : Insn := imm20 ++ rd ++ opcode

/-- S-type (R75, R79). -/
def encodeS (imm : BitVec 12) (rs2 rs1 : Reg) (funct3 : BitVec 3) : Insn :=
  imm.extractLsb' 5 7 ++ rs2 ++ rs1 ++ funct3 ++ imm.extractLsb' 0 5 ++ 0b0100011#7

/-- B-type (R76, R80): bit 0 of the offset has no place in the word. -/
def encodeB (offset : BitVec 13) (rs2 rs1 : Reg) (funct3 : BitVec 3) : Insn :=
  offset.extractLsb' 12 1 ++ offset.extractLsb' 5 6 ++ rs2 ++ rs1 ++ funct3 ++ offset.extractLsb' 1 4 ++
    offset.extractLsb' 11 1 ++ 0b1100011#7

/-- J-type (R77, R81): bit 0 of the offset has no place in the word. -/
def encodeJ (offset : BitVec 21) (rd : Reg) : Insn :=
  offset.extractLsb' 20 1 ++ offset.extractLsb' 1 10 ++ offset.extractLsb' 11 1 ++ offset.extractLsb' 12 8 ++ rd ++
    0b1101111#7

/-- The word of an instruction (R84 to R90). -/
def encode : Instr → Insn
  | .add rd rs1 rs2   => encodeR 0b0000000 rs2 rs1 0b000 rd 0b0110011
  | .sub rd rs1 rs2   => encodeR 0b0100000 rs2 rs1 0b000 rd 0b0110011
  | .addi rd rs1 imm  => encodeI imm rs1 0b000 rd 0b0010011
  | .auipc rd imm20   => encodeU imm20 rd 0b0010111
  | .ld rd rs1 imm    => encodeI imm rs1 0b011 rd 0b0000011
  | .sd rs2 rs1 imm   => encodeS imm rs2 rs1 0b011
  | .lw rd rs1 imm    => encodeI imm rs1 0b010 rd 0b0000011
  | .lwu rd rs1 imm   => encodeI imm rs1 0b110 rd 0b0000011
  | .sw rs2 rs1 imm   => encodeS imm rs2 rs1 0b010
  | .lh rd rs1 imm    => encodeI imm rs1 0b001 rd 0b0000011
  | .lhu rd rs1 imm   => encodeI imm rs1 0b101 rd 0b0000011
  | .sh rs2 rs1 imm   => encodeS imm rs2 rs1 0b001
  | .lb rd rs1 imm    => encodeI imm rs1 0b000 rd 0b0000011
  | .lbu rd rs1 imm   => encodeI imm rs1 0b100 rd 0b0000011
  | .sb rs2 rs1 imm   => encodeS imm rs2 rs1 0b000
  | .lui rd imm20     => encodeU imm20 rd 0b0110111
  | .and rd rs1 rs2   => encodeR 0b0000000 rs2 rs1 0b111 rd 0b0110011
  | .or rd rs1 rs2    => encodeR 0b0000000 rs2 rs1 0b110 rd 0b0110011
  | .xor rd rs1 rs2   => encodeR 0b0000000 rs2 rs1 0b100 rd 0b0110011
  | .andi rd rs1 imm  => encodeI imm rs1 0b111 rd 0b0010011
  | .ori rd rs1 imm   => encodeI imm rs1 0b110 rd 0b0010011
  | .xori rd rs1 imm  => encodeI imm rs1 0b100 rd 0b0010011
  | .sll rd rs1 rs2   => encodeR 0b0000000 rs2 rs1 0b001 rd 0b0110011
  | .srl rd rs1 rs2   => encodeR 0b0000000 rs2 rs1 0b101 rd 0b0110011
  | .sra rd rs1 rs2   => encodeR 0b0100000 rs2 rs1 0b101 rd 0b0110011
  | .slli rd rs1 sh   => encodeShift 0b000000 sh rs1 0b001 rd
  | .srli rd rs1 sh   => encodeShift 0b000000 sh rs1 0b101 rd
  | .srai rd rs1 sh   => encodeShift 0b010000 sh rs1 0b101 rd
  | .beq rs1 rs2 off  => encodeB off rs2 rs1 0b000
  | .bne rs1 rs2 off  => encodeB off rs2 rs1 0b001
  | .blt rs1 rs2 off  => encodeB off rs2 rs1 0b100
  | .bge rs1 rs2 off  => encodeB off rs2 rs1 0b101
  | .bltu rs1 rs2 off => encodeB off rs2 rs1 0b110
  | .bgeu rs1 rs2 off => encodeB off rs2 rs1 0b111
  | .jal rd off       => encodeJ off rd
  | .jalr rd rs1 imm  => encodeI imm rs1 0b000 rd 0b1100111
  | .slt rd rs1 rs2   => encodeR 0b0000000 rs2 rs1 0b010 rd 0b0110011
  | .sltu rd rs1 rs2  => encodeR 0b0000000 rs2 rs1 0b011 rd 0b0110011
  | .slti rd rs1 imm  => encodeI imm rs1 0b010 rd 0b0010011
  | .sltiu rd rs1 imm => encodeI imm rs1 0b011 rd 0b0010011

/-! ### The opcode table as masks (R91) -/

/-- One row of spec/opcode_table.json. -/
structure OpcodeRow where
  mnemonic : String
  mask     : Insn
  value    : Insn
deriving DecidableEq, Repr

def maskR : Insn := 0xFE00707F
def maskI : Insn := 0x0000707F
def maskShift : Insn := 0xFC00707F
def maskU : Insn := 0x0000007F

/-- The row an instruction belongs to: its `mask` and `match` of R111 to R183. -/
def opcodeRow : Instr → OpcodeRow
  | .add ..   => ⟨"add", maskR, 0x00000033⟩
  | .sub ..   => ⟨"sub", maskR, 0x40000033⟩
  | .addi ..  => ⟨"addi", maskI, 0x00000013⟩
  | .auipc .. => ⟨"auipc", maskU, 0x00000017⟩
  | .ld ..    => ⟨"ld", maskI, 0x00003003⟩
  | .sd ..    => ⟨"sd", maskI, 0x00003023⟩
  | .lw ..    => ⟨"lw", maskI, 0x00002003⟩
  | .lwu ..   => ⟨"lwu", maskI, 0x00006003⟩
  | .sw ..    => ⟨"sw", maskI, 0x00002023⟩
  | .lh ..    => ⟨"lh", maskI, 0x00001003⟩
  | .lhu ..   => ⟨"lhu", maskI, 0x00005003⟩
  | .sh ..    => ⟨"sh", maskI, 0x00001023⟩
  | .lb ..    => ⟨"lb", maskI, 0x00000003⟩
  | .lbu ..   => ⟨"lbu", maskI, 0x00004003⟩
  | .sb ..    => ⟨"sb", maskI, 0x00000023⟩
  | .lui ..   => ⟨"lui", maskU, 0x00000037⟩
  | .and ..   => ⟨"and", maskR, 0x00007033⟩
  | .or ..    => ⟨"or", maskR, 0x00006033⟩
  | .xor ..   => ⟨"xor", maskR, 0x00004033⟩
  | .andi ..  => ⟨"andi", maskI, 0x00007013⟩
  | .ori ..   => ⟨"ori", maskI, 0x00006013⟩
  | .xori ..  => ⟨"xori", maskI, 0x00004013⟩
  | .sll ..   => ⟨"sll", maskR, 0x00001033⟩
  | .srl ..   => ⟨"srl", maskR, 0x00005033⟩
  | .sra ..   => ⟨"sra", maskR, 0x40005033⟩
  | .slli ..  => ⟨"slli", maskShift, 0x00001013⟩
  | .srli ..  => ⟨"srli", maskShift, 0x00005013⟩
  | .srai ..  => ⟨"srai", maskShift, 0x40005013⟩
  | .beq ..   => ⟨"beq", maskI, 0x00000063⟩
  | .bne ..   => ⟨"bne", maskI, 0x00001063⟩
  | .blt ..   => ⟨"blt", maskI, 0x00004063⟩
  | .bge ..   => ⟨"bge", maskI, 0x00005063⟩
  | .bltu ..  => ⟨"bltu", maskI, 0x00006063⟩
  | .bgeu ..  => ⟨"bgeu", maskI, 0x00007063⟩
  | .jal ..   => ⟨"jal", maskU, 0x0000006F⟩
  | .jalr ..  => ⟨"jalr", maskI, 0x00000067⟩
  | .slt ..   => ⟨"slt", maskR, 0x00002033⟩
  | .sltu ..  => ⟨"sltu", maskR, 0x00003033⟩
  | .slti ..  => ⟨"slti", maskI, 0x00002013⟩
  | .sltiu .. => ⟨"sltiu", maskI, 0x00003013⟩

/-- One instruction of each row, family by family in the order of spec/opcode_table.json. -/
def oneOfEachRow : List (List Instr) :=
  [[.add 0 0 0, .sub 0 0 0, .addi 0 0 0, .auipc 0 0],
   [.ld 0 0 0, .sd 0 0 0, .lw 0 0 0, .lwu 0 0 0, .sw 0 0 0, .lh 0 0 0, .lhu 0 0 0, .sh 0 0 0, .lb 0 0 0, .lbu 0 0 0,
    .sb 0 0 0, .lui 0 0],
   [.and 0 0 0, .or 0 0 0, .xor 0 0 0, .andi 0 0 0, .ori 0 0 0, .xori 0 0 0],
   [.sll 0 0 0, .srl 0 0 0, .sra 0 0 0, .slli 0 0 0, .srli 0 0 0, .srai 0 0 0],
   [.beq 0 0 0, .bne 0 0 0, .blt 0 0 0, .bge 0 0 0, .bltu 0 0 0, .bgeu 0 0 0],
   [.jal 0 0, .jalr 0 0 0],
   [.slt 0 0 0, .sltu 0 0 0, .slti 0 0 0, .sltiu 0 0 0]]

/-- The opcode table: 40 rows of mask and match (R91). -/
def opcodeTable : List OpcodeRow := oneOfEachRow.flatten.map opcodeRow

/-- R91: the word is an instruction of the row. -/
def OpcodeRow.matches (r : OpcodeRow) (w : Insn) : Bool := w &&& r.mask == r.value

end Sys2Proof
end

