-- ==== Sys2Proof/Machine/Run.lean ====
section
/-!
DEFINITION. The parts of a step around the instruction itself (70_reset_and_hazards.md R245, R246): the end of a run,
fetching and decoding.
-/

namespace Sys2Proof.Machine

/-- The run ends here: before a fetch, `pc = HALT_PC` (R246). -/
def atHalt (s : State) : Bool := s.pc == s.platform.haltPc

/-- The end of a run (R246): the status becomes `Halted` and nothing is fetched. -/
def haltRun (s : State) : State := { s with status := .halted }

/-- Fetch and decode at the pc (R245): a word that matches no row is `IllegalInstruction` (R203). -/
def fetchInstr (s : State) : Except FaultCause Instr :=
  match fetchWord s s.pc with
  | .error cause => .error cause
  | .ok w =>
    match decode w with
    | .ok i => .ok i
    | .error _ => .error (.illegalInstruction w)

end Sys2Proof.Machine
end

