-- ==== Sys2Proof/Machine/Step.lean ====
section
/-!
DEFINITION. One step of the machine (70_reset_and_hazards.md R245), and the host's load of one instruction.
-/

namespace Sys2Proof.Machine

/-- One step. A run that is over has no next state (R201, R246); a running one halts at `HALT_PC` (R246, log 7), or
fetches, decodes and executes, a fault being recorded in the status (R201, R245). -/
def step (s : State) : Host.Outcome State Fault Refusal :=
  match s.status with
  | .halted => .fault .runHalted
  | .faulted cause pc => .fault (.runFaulted cause pc)
  | .running =>
    if atHalt s then .next (haltRun s)
    else
      match fetchInstr s with
      | .error cause => .next (raise cause s)
      | .ok i => exec i s

/-- The state with the instruction of these bits where `step` fetches: loaded by the host at the pc (R242, log 9). -/
def State.withFetchWord (s : State) (nbits w : Nat) : State := s.placeWord s.pc (tableWord nbits w)

end Sys2Proof.Machine
end

