-- ==== Sys2Proof/Machine/Asm.lean ====
section
/-!
DEFINITION. The assembler notation (30_encoding.md R100 to R108) and the register table (10_state.md R22, R23): text to
instructions and words. It is notation only: no step reads it (00_scope.md R5), and no instruction enforces the
convention of the table (R23). What the source gives no form to is refused (R103, R108, log 8).
-/

namespace Sys2Proof.Machine.Asm

/-! ### Registers (R22, R102) -/

/-- Which side of a procedure call preserves a register: software convention only (R23). -/
inductive Saver where
  | caller
  | callee
deriving DecidableEq, Repr

/-- A row of the register table: the names the assembler accepts, the description, the saver (blank for some). -/
structure RegRow where
  names       : List String
  description : String
  saver       : Option Saver
deriving DecidableEq, Repr

/-- The register table, `x0` to `x31` in order (R22). -/
def registerTable : List RegRow :=
  [⟨["x0", "zero"], "Hard-wired zero", none⟩,
   ⟨["x1", "ra"], "Return address", some .caller⟩,
   ⟨["x2", "sp"], "Stack pointer", some .callee⟩,
   ⟨["x3", "gp"], "Global pointer", none⟩,
   ⟨["x4", "tp"], "Thread pointer", none⟩,
   ⟨["x5", "t0"], "Temporaries", some .caller⟩,
   ⟨["x6", "t1"], "Temporaries", some .caller⟩,
   ⟨["x7", "t2"], "Temporaries", some .caller⟩,
   ⟨["x8", "s0", "fp"], "Saved register/frame pointer", some .callee⟩,
   ⟨["x9", "s1"], "Saved register", some .callee⟩,
   ⟨["x10", "a0", "v0"], "Function arguments/return values", some .caller⟩,
   ⟨["x11", "a1", "v1"], "Function arguments/return values", some .caller⟩,
   ⟨["x12", "a2"], "Function arguments", some .caller⟩,
   ⟨["x13", "a3"], "Function arguments", some .caller⟩,
   ⟨["x14", "a4"], "Function arguments", some .caller⟩,
   ⟨["x15", "a5"], "Function arguments", some .caller⟩,
   ⟨["x16", "a6"], "Function arguments", some .caller⟩,
   ⟨["x17", "a7"], "Function arguments", some .caller⟩,
   ⟨["x18", "s2"], "Saved registers", some .callee⟩,
   ⟨["x19", "s3"], "Saved registers", some .callee⟩,
   ⟨["x20", "s4"], "Saved registers", some .callee⟩,
   ⟨["x21", "s5"], "Saved registers", some .callee⟩,
   ⟨["x22", "s6"], "Saved registers", some .callee⟩,
   ⟨["x23", "s7"], "Saved registers", some .callee⟩,
   ⟨["x24", "s8"], "Saved registers", some .callee⟩,
   ⟨["x25", "s9"], "Saved registers", some .callee⟩,
   ⟨["x26", "s10"], "Saved registers", some .callee⟩,
   ⟨["x27", "s11"], "Saved registers", some .callee⟩,
   ⟨["x28", "t3"], "Temporaries", some .caller⟩,
   ⟨["x29", "t4"], "Temporaries", some .caller⟩,
   ⟨["x30", "t5"], "Temporaries", some .caller⟩,
   ⟨["x31", "t6"], "Temporaries", some .caller⟩]

/-- The register a number name or symbolic name stands for (R22, R102). -/
def regNamed (name : String) : Option Reg :=
  (registerTable.findIdx? fun row => row.names.contains name).map (BitVec.ofNat 5)

/-! ### Operands (R101, R103, R104) -/

/-- An operand as written. -/
inductive Operand where
  | reg (r : Reg)
  | num (n : Int)
  /-- `imm(rs1)`. -/
  | based (imm : Int) (rs1 : Reg)
  /-- A label operand, standing for `label address - pc` (R104). -/
  | label (name : String)
deriving DecidableEq, Repr

/-- A signed field of `w` bits, if the number is in its range (R103). -/
def signedField (w : Nat) (n : Int) : Option (BitVec w) :=
  if -(2 ^ (w - 1) : Int) ≤ n ∧ n < (2 ^ (w - 1) : Int) then some (BitVec.ofInt w n) else none

/-- An unsigned field of `w` bits, if the number is in its range (R103). -/
def unsignedField (w : Nat) (n : Int) : Option (BitVec w) :=
  if 0 ≤ n ∧ n < (2 ^ w : Int) then some (BitVec.ofInt w n) else none

/-- An even signed offset of `w` bits (R104). -/
def offsetField (w : Nat) (n : Int) : Option (BitVec w) := if n % 2 = 0 then signedField w n else none

/-- The operand forms of R101, each with the instructions it makes. -/
inductive Form where
  | register (make : Reg → Reg → Reg → Instr)
  | immediate (make : Reg → Reg → BitVec 12 → Instr)
  | shift (make : Reg → Reg → BitVec 6 → Instr)
  | based (make : Reg → Reg → BitVec 12 → Instr)
  | branch (make : Reg → Reg → BitVec 13 → Instr)
  | jump (make : Reg → BitVec 21 → Instr)
  | upper (make : Reg → BitVec 20 → Instr)
  | fixed (i : Instr)

/-- The mnemonics, `nop` among them (R105); loads, stores and `jalr` share a form (R101). -/
def mnemonicForms : List (String × Form) :=
  [("add", .register .add), ("sub", .register .sub), ("addi", .immediate .addi), ("auipc", .upper .auipc),
   ("ld", .based .ld), ("sd", .based .sd), ("lw", .based .lw), ("lwu", .based .lwu), ("sw", .based .sw),
   ("lh", .based .lh), ("lhu", .based .lhu), ("sh", .based .sh), ("lb", .based .lb), ("lbu", .based .lbu),
   ("sb", .based .sb), ("lui", .upper .lui),
   ("and", .register .and), ("or", .register .or), ("xor", .register .xor),
   ("andi", .immediate .andi), ("ori", .immediate .ori), ("xori", .immediate .xori),
   ("sll", .register .sll), ("srl", .register .srl), ("sra", .register .sra),
   ("slli", .shift .slli), ("srli", .shift .srli), ("srai", .shift .srai),
   ("beq", .branch .beq), ("bne", .branch .bne), ("blt", .branch .blt), ("bge", .branch .bge),
   ("bltu", .branch .bltu), ("bgeu", .branch .bgeu),
   ("jal", .jump .jal), ("jalr", .based .jalr),
   ("slt", .register .slt), ("sltu", .register .sltu), ("slti", .immediate .slti), ("sltiu", .immediate .sltiu),
   ("nop", .fixed (.addi 0 0 0))]

/-- The instruction a form and its operands make, if each operand has its kind and is in range (R101, R103). -/
def Form.build : Form → List Operand → Option Instr
  | .register make, [.reg rd, .reg rs1, .reg rs2] => some (make rd rs1 rs2)
  | .immediate make, [.reg rd, .reg rs1, .num n] => (signedField 12 n).map (make rd rs1)
  | .shift make, [.reg rd, .reg rs1, .num n] => (unsignedField 6 n).map (make rd rs1)
  | .based make, [.reg r, .based n rs1] => (signedField 12 n).map (make r rs1)
  | .branch make, [.reg rs1, .reg rs2, .num n] => (offsetField 13 n).map (make rs1 rs2)
  | .jump make, [.reg rd, .num n] => (offsetField 21 n).map (make rd)
  | .upper make, [.reg rd, .num n] => (unsignedField 20 n).map (make rd)
  | .fixed i, [] => some i
  | _, _ => none

/-- A statement: a mnemonic and its operands, perhaps after a label (R100). -/
structure Statement where
  label    : Option String
  mnemonic : String
  operands : List Operand
deriving DecidableEq, Repr

/-- The instruction of a statement whose label operands are resolved. -/
def Statement.instr (st : Statement) : Option Instr :=
  match mnemonicForms.lookup st.mnemonic with
  | some form => form.build st.operands
  | none => none

/-! ### Text (R100, R102, R103) -/

def isBlank (c : Char) : Bool := c == ' ' || c == '\t'

def trim (cs : List Char) : List Char := ((cs.dropWhile isBlank).reverse.dropWhile isBlank).reverse

/-- Splits at every `sep`. -/
def splitAtChar (sep : Char) : List Char → List (List Char)
  | [] => [[]]
  | c :: cs =>
    match splitAtChar sep cs with
    | [] => [[c]]
    | part :: parts => if c == sep then [] :: part :: parts else (c :: part) :: parts

/-- The digits of a number in a base up to 16, most significant first; none where there is no digit. -/
def digits (base : Nat) (cs : List Char) : Option Nat :=
  let value (c : Char) : Nat :=
    if '0' ≤ c ∧ c ≤ '9' then c.toNat - '0'.toNat
    else if 'a' ≤ c ∧ c ≤ 'f' then c.toNat - 'a'.toNat + 10
    else if 'A' ≤ c ∧ c ≤ 'F' then c.toNat - 'A'.toNat + 10
    else base
  if cs.isEmpty || cs.any (fun c => decide (base ≤ value c)) then none
  else some (cs.foldl (fun n c => n * base + value c) 0)

/-- A number: decimal, or hexadecimal with `0x` (R103), perhaps negative. -/
def number : List Char → Option Int
  | '-' :: '0' :: 'x' :: cs => (digits 16 cs).map fun n => -(n : Int)
  | '-' :: cs => (digits 10 cs).map fun n => -(n : Int)
  | '0' :: 'x' :: cs => (digits 16 cs).map fun n => (n : Int)
  | cs => (digits 10 cs).map fun n => (n : Int)

/-- A name: a letter or an underscore, then letters, digits and underscores (log 8). -/
def isName : List Char → Bool
  | [] => false
  | c :: cs => (c.isAlpha || c == '_') && cs.all fun d => d.isAlphanum || d == '_'

/-- An operand's text. DESIGN CHOICE (safe), log 8: a name that is a register's (R102) is always the register, so that a
label of such a name can be defined but not used; the spec does not say which reading wins. -/
def operand (text : List Char) : Option Operand :=
  let cs := trim text
  match regNamed (String.ofList cs), number cs with
  | some r, _ => some (.reg r)
  | none, some n => some (.num n)
  | none, none =>
    match cs.reverse with
    | ')' :: before =>
      match splitAtChar '(' before.reverse with
      | [imm, base] =>
        match number (trim imm), regNamed (String.ofList (trim base)) with
        | some n, some r => some (.based n r)
        | _, _ => none
      | _ => none
    | _ => if isName cs then some (.label (String.ofList cs)) else none

/-- The answers of all parts, if each has one. -/
def collect {α : Type} : List (Option α) → Option (List α)
  | [] => some []
  | some a :: rest => (collect rest).map (a :: ·)
  | none :: _ => none

/-- A statement without its label. Case carries no meaning in a mnemonic (R100). -/
def unlabelled (label : Option String) (text : List Char) : Option Statement :=
  let cs := trim text
  let mnemonic := String.ofList ((cs.takeWhile fun c => !isBlank c).map Char.toLower)
  let rest := trim (cs.dropWhile fun c => !isBlank c)
  match rest with
  | [] => some ⟨label, mnemonic, []⟩
  | _ => (collect ((splitAtChar ',' rest).map operand)).map fun ops => ⟨label, mnemonic, ops⟩

/-- A statement's text, with or without a label before it (R100). -/
def statement (text : List Char) : Option Statement :=
  match splitAtChar ':' text with
  | [body] => unlabelled none body
  | [name, body] =>
    if isName (trim name) then unlabelled (some (String.ofList (trim name))) body else none
  | _ => none

/-! ### Programs -/

/-- The forms whose last operand may be a label. DESIGN CHOICE (safe), log 8: R101 shows a label with `jal` only and R104
speaks of branches and `jal`; no other form takes one. -/
def Form.takesLabel : Form → Bool
  | .branch _ | .jump _ => true
  | .register _ | .immediate _ | .shift _ | .based _ | .upper _ | .fixed _ => false

/-- A label operand stands for `label address - pc` (R104). -/
def resolve (labels : List (String × Word)) (pc : Word) : Operand → Option Operand
  | .label name => (labels.lookup name).map fun target => .num (target - pc).toInt
  | op => some op

/-- The statement at `pc` with its label operands resolved, where its form takes them: elsewhere a label makes no
instruction (log 8). -/
def Statement.resolved (labels : List (String × Word)) (pc : Word) (st : Statement) : Option Statement :=
  match mnemonicForms.lookup st.mnemonic with
  | some form =>
    if form.takesLabel then
      (collect (st.operands.map (resolve labels pc))).map fun ops => ⟨st.label, st.mnemonic, ops⟩
    else some st
  | none => none

/-- The labels of a program whose first statement stands at `pc`. -/
def labelsFrom : Word → List Statement → List (String × Word)
  | _, [] => []
  | pc, st :: rest =>
    match st.label with
    | some name => (name, pc) :: labelsFrom (pc + 4) rest
    | none => labelsFrom (pc + 4) rest

/-- The words of the statements from `pc` on. -/
def wordsFrom (labels : List (String × Word)) : Word → List Statement → Option (List Insn)
  | _, [] => some []
  | pc, st :: rest =>
    match (st.resolved labels pc).bind Statement.instr, wordsFrom labels (pc + 4) rest with
    | some i, some ws => some (encode i :: ws)
    | _, _ => none

/-- The words of a program's lines, the first at `base` and each 4 bytes after the one before (R70, R100). -/
def assemble (base : Word) (lines : List String) : Option (List Insn) :=
  match collect (lines.map fun line => statement line.toList) with
  | none => none
  | some sts => wordsFrom (labelsFrom base sts) base sts

/-! ### Far offsets (R107) -/

/-- `lo = d[11:0]`, read as a signed 12-bit number. -/
def farLow (d : Word) : BitVec 12 := d.extractLsb' 0 12

/-- `hi = ((d - lo) >> 12)[19:0]`: one more than `d[31:12]` when `d[11] = 1`. -/
def farHigh (d : Word) : BitVec 20 := (d - (farLow d).signExtend 64).extractLsb' 12 20

end Sys2Proof.Machine.Asm
end

