-- ==== Sys2Proof/Safety.lean ====
section
/-!
DEFINITION. Runs, what a safe run is, and the invariant of the machine, in the terms claims use.
-/

namespace Sys2Proof.Safety

open Sys2Proof.Machine

/-- `t` comes from `s` by some number of steps. -/
inductive Reaches (s : State) : State → Prop where
  | refl : Reaches s s
  | tail {t u : State} : Reaches s t → step t = .next u → Reaches s u

/-- The state records a fault (10_state.md R32). -/
def State.isFaulted (s : State) : Bool :=
  match s.status with
  | .faulted _ _ => true
  | .running | .halted => false

/-- No state of the run from `s` is faulted: what a claim about a program has to show (60_exceptions.md R201). -/
def Safe (s : State) : Prop := ∀ t, Reaches s t → State.isFaulted t = false

/-- The run from `s` ends normally (70_reset_and_hazards.md R246). -/
def EndsNormally (s : State) : Prop := ∃ t, Reaches s t ∧ t.status = .halted

/-- What every step keeps: the canonical forms, the alignment of the pc (R26), `Written` inside valid memory (R46), and
what the status says about the pc (R201, R246, 90_conflicts.md C15). -/
structure Inv (s : State) : Prop where
  memory_wf       : s.mem.wf = true
  written_wf      : s.written.wf = true
  pc_aligned      : s.pc.toNat % 4 = 0
  written_valid   : ∀ a ∈ s.written, memValid s.platform a = true
  halted_at_halt  : s.status = .halted → s.pc = s.platform.haltPc
  faulted_at_pc   : ∀ cause pc, s.status = .faulted cause pc → pc = s.pc

end Sys2Proof.Safety
end

