-- ==== Sys2Proof/Certificates/Slice0/Obligations.lean ====
section
/-!
DEFINITION. The statements for the provers, taken from the numbered rules of spec/. The terms they share are defined
first, under `Sys2Proof.Claims`: instruction words written out field by field as the rules print them, and what an
instruction of each shape does and leaves unchanged.
-/

namespace Sys2Proof.Claims

open Sys2Proof.Machine

/-! ### Words, field by field -/

/-- R72. -/
def wordR (funct7 : BitVec 7) (rs2 rs1 : BitVec 5) (funct3 : BitVec 3) (rd : BitVec 5) (opcode : BitVec 7) : BitVec 32 :=
  funct7 ++ rs2 ++ rs1 ++ funct3 ++ rd ++ opcode

/-- R73. -/
def wordI (imm : BitVec 12) (rs1 : BitVec 5) (funct3 : BitVec 3) (rd : BitVec 5) (opcode : BitVec 7) : BitVec 32 :=
  imm ++ rs1 ++ funct3 ++ rd ++ opcode

/-- R73, the sub-form of the immediate shifts. -/
def wordShift (funct6 shamt : BitVec 6) (rs1 : BitVec 5) (funct3 : BitVec 3) (rd : BitVec 5) : BitVec 32 :=
  funct6 ++ shamt ++ rs1 ++ funct3 ++ rd ++ 0b0010011#7

/-- R74. -/
def wordU (imm : BitVec 20) (rd : BitVec 5) (opcode : BitVec 7) : BitVec 32 := imm ++ rd ++ opcode

/-- R75: `imm11_5` and `imm4_0` are the two parts of the immediate. -/
def wordS (imm11_5 : BitVec 7) (rs2 rs1 : BitVec 5) (funct3 : BitVec 3) (imm4_0 : BitVec 5) : BitVec 32 :=
  imm11_5 ++ rs2 ++ rs1 ++ funct3 ++ imm4_0 ++ 0b0100011#7

/-- R76: the four parts of the immediate where the format puts them. -/
def wordB (imm12 : BitVec 1) (imm10_5 : BitVec 6) (rs2 rs1 : BitVec 5) (funct3 : BitVec 3) (imm4_1 : BitVec 4)
    (imm11 : BitVec 1) : BitVec 32 :=
  imm12 ++ imm10_5 ++ rs2 ++ rs1 ++ funct3 ++ imm4_1 ++ imm11 ++ 0b1100011#7

/-- R77: the four parts of the immediate where the format puts them. -/
def wordJ (imm20 : BitVec 1) (imm10_1 : BitVec 10) (imm11 : BitVec 1) (imm19_12 : BitVec 8) (rd : BitVec 5) : BitVec 32 :=
  imm20 ++ imm10_1 ++ imm11 ++ imm19_12 ++ rd ++ 0b1101111#7

/-! ### The opcode table -/

/-- The rows of spec/opcode_table.json: mnemonic, mask and match. -/
def tableRows : List OpcodeRow :=
  [⟨"add", 0xFE00707F#32, 0x00000033#32⟩, ⟨"sub", 0xFE00707F#32, 0x40000033#32⟩,
    ⟨"addi", 0x0000707F#32, 0x00000013#32⟩, ⟨"auipc", 0x0000007F#32, 0x00000017#32⟩] ++
  [⟨"ld", 0x0000707F#32, 0x00003003#32⟩, ⟨"sd", 0x0000707F#32, 0x00003023#32⟩,
    ⟨"lw", 0x0000707F#32, 0x00002003#32⟩, ⟨"lwu", 0x0000707F#32, 0x00006003#32⟩,
    ⟨"sw", 0x0000707F#32, 0x00002023#32⟩, ⟨"lh", 0x0000707F#32, 0x00001003#32⟩,
    ⟨"lhu", 0x0000707F#32, 0x00005003#32⟩, ⟨"sh", 0x0000707F#32, 0x00001023#32⟩,
    ⟨"lb", 0x0000707F#32, 0x00000003#32⟩, ⟨"lbu", 0x0000707F#32, 0x00004003#32⟩,
    ⟨"sb", 0x0000707F#32, 0x00000023#32⟩, ⟨"lui", 0x0000007F#32, 0x00000037#32⟩] ++
  [⟨"and", 0xFE00707F#32, 0x00007033#32⟩, ⟨"or", 0xFE00707F#32, 0x00006033#32⟩,
    ⟨"xor", 0xFE00707F#32, 0x00004033#32⟩, ⟨"andi", 0x0000707F#32, 0x00007013#32⟩,
    ⟨"ori", 0x0000707F#32, 0x00006013#32⟩, ⟨"xori", 0x0000707F#32, 0x00004013#32⟩] ++
  [⟨"sll", 0xFE00707F#32, 0x00001033#32⟩, ⟨"srl", 0xFE00707F#32, 0x00005033#32⟩,
    ⟨"sra", 0xFE00707F#32, 0x40005033#32⟩, ⟨"slli", 0xFC00707F#32, 0x00001013#32⟩,
    ⟨"srli", 0xFC00707F#32, 0x00005013#32⟩, ⟨"srai", 0xFC00707F#32, 0x40005013#32⟩] ++
  [⟨"beq", 0x0000707F#32, 0x00000063#32⟩, ⟨"bne", 0x0000707F#32, 0x00001063#32⟩,
    ⟨"blt", 0x0000707F#32, 0x00004063#32⟩, ⟨"bge", 0x0000707F#32, 0x00005063#32⟩,
    ⟨"bltu", 0x0000707F#32, 0x00006063#32⟩, ⟨"bgeu", 0x0000707F#32, 0x00007063#32⟩] ++
  [⟨"jal", 0x0000007F#32, 0x0000006F#32⟩, ⟨"jalr", 0x0000707F#32, 0x00000067#32⟩] ++
  [⟨"slt", 0xFE00707F#32, 0x00002033#32⟩, ⟨"sltu", 0xFE00707F#32, 0x00003033#32⟩,
    ⟨"slti", 0x0000707F#32, 0x00002013#32⟩, ⟨"sltiu", 0x0000707F#32, 0x00003013#32⟩]

/-! ### Addresses and accesses -/

/-- The 64-bit sum of an address and a signed offset, modulo 2^64 (R25, R53). -/
def offsetBy (a : Word) (offset : Int) : Word := BitVec.ofInt 64 ((a.toNat : Int) + offset)

/-- An access to `n` bytes at `ea` that raises no fault: it stays below 2^64 and touches valid bytes only (R45, R46). -/
def Fits (s : State) (ea : Word) (n : Nat) : Prop :=
  ea.toNat + n ≤ 2 ^ 64 ∧ ∀ k < n, memValid s.platform (ea.toNat + k) = true

/-- `a` is one of the `n` bytes at `ea`. -/
def Among (ea : Word) (n a : Nat) : Prop := ea.toNat ≤ a ∧ a < ea.toNat + n

/-! ### Frames -/

/-- Every byte of memory and `Written` are as before. -/
def SameMemory (s t : State) : Prop :=
  (∀ a, t.mem.readByte a = s.mem.readByte a) ∧ ∀ a, a ∈ t.written ↔ a ∈ s.written

/-- `rd` holds `v` unless it is `x0`; every other register, memory, `Written`, the status and the parameters are as
before; the pc is `next`. -/
def Sets (s t : State) (rd : Reg) (v : Word) (next : Word) : Prop :=
  (rd ≠ 0#5 → t.reg rd = v) ∧ t.reg 0#5 = 0#64 ∧ (∀ r, r ≠ rd → t.reg r = s.reg r) ∧ SameMemory s t ∧
    t.status = s.status ∧ t.platform = s.platform ∧ t.pc = next

/-- The state with a fault of the instruction at its pc recorded, and nothing else changed (R201). -/
def faultedWith (s : State) (cause : FaultCause) : State := { s with status := .faulted cause s.pc }

/-- From every state the instruction completes: it writes `v` to `rd`, advances the pc by 4, and does nothing else. -/
def Computes (i : Instr) (rd : Reg) (v : State → Word) : Prop :=
  ∀ s, ∃ t, exec i s = .next t ∧ Sets s t rd (v s) (s.pc + 4#64)

/-- As `Computes`, the value being told by a property. -/
def ComputesSome (i : Instr) (rd : Reg) (p : State → Word → Prop) : Prop :=
  ∀ s, ∃ t v, exec i s = .next t ∧ Sets s t rd v (s.pc + 4#64) ∧ p s v

/-! ### The rules of one shape -/

/-- A register form: its word (R72, R85), and its result by a property of the two operands. -/
def RegisterRule (make : Reg → Reg → Reg → Instr) (funct7 : BitVec 7) (funct3 : BitVec 3) (p : Word → Word → Word → Prop) :
    Prop :=
  ∀ rd rs1 rs2, decode (wordR funct7 rs2 rs1 funct3 rd 0b0110011#7) = .ok (make rd rs1 rs2) ∧
    ComputesSome (make rd rs1 rs2) rd fun s v => p (s.reg rs1) (s.reg rs2) v

/-- An immediate form of OP-IMM: its word (R73, R86), and its result by a property of the operand and the immediate. -/
def ImmediateRule (make : Reg → Reg → BitVec 12 → Instr) (funct3 : BitVec 3) (p : Word → BitVec 12 → Word → Prop) : Prop :=
  ∀ rd rs1 imm, decode (wordI imm rs1 funct3 rd 0b0010011#7) = .ok (make rd rs1 imm) ∧
    ComputesSome (make rd rs1 imm) rd fun s v => p (s.reg rs1) imm v

/-- Bit `i` of a 12-bit immediate after sign extension (R78). -/
def immBit (imm : BitVec 12) (i : Nat) : Bool := if i < 12 then imm.getLsbD i else imm.getLsbD 11

/-- R150: `v` is `a` shifted left by `n`, bit by bit and as a product. -/
def ShiftedLeft (a : Word) (n : Nat) (v : Word) : Prop :=
  (∀ i < 64, v.getLsbD i = if n ≤ i then a.getLsbD (i - n) else false) ∧ v.toNat = a.toNat * 2 ^ n % 2 ^ 64

/-- R150: `v` is `a` shifted right by `n`, zeros entering, bit by bit and as a quotient. -/
def ShiftedRight (a : Word) (n : Nat) (v : Word) : Prop :=
  (∀ i < 64, v.getLsbD i = if i ≤ 63 - n then a.getLsbD (i + n) else false) ∧ v.toNat = a.toNat / 2 ^ n

/-- R150: `v` is `a` shifted right by `n`, copies of bit 63 entering, bit by bit and as a quotient rounded down. -/
def ShiftedRightSigned (a : Word) (n : Nat) (v : Word) : Prop :=
  (∀ i < 64, v.getLsbD i = if i ≤ 63 - n then a.getLsbD (i + n) else a.getLsbD 63) ∧ v.toInt = a.toInt / 2 ^ n

/-- An immediate shift: its word (R73, R86) and its result. -/
def ShiftRule (make : Reg → Reg → BitVec 6 → Instr) (funct6 : BitVec 6) (funct3 : BitVec 3) (p : Word → Nat → Word → Prop) :
    Prop :=
  ∀ rd rs1 shamt, decode (wordShift funct6 shamt rs1 funct3 rd) = .ok (make rd rs1 shamt) ∧
    ComputesSome (make rd rs1 shamt) rd fun s v => p (s.reg rs1) shamt.toNat v

/-- A load of `n` bytes (R120 to R122): its word (R73, R87); where the access fits, byte `k` of `rd` is the byte at
`ea + k` and the bits above are copies of the top loaded bit or zeros; where it does not, the fault, and nothing else. -/
def LoadRule (make : Reg → Reg → BitVec 12 → Instr) (funct3 : BitVec 3) (n : Nat) (signed : Bool) : Prop :=
  ∀ rd rs1 imm, decode (wordI imm rs1 funct3 rd 0b0000011#7) = .ok (make rd rs1 imm) ∧
    ∀ s ea, ea = offsetBy (s.reg rs1) imm.toInt →
      (Fits s ea n → ∃ t v, exec (make rd rs1 imm) s = .next t ∧ Sets s t rd v (s.pc + 4#64) ∧
        (∀ k < n, v.extractLsb' (8 * k) 8 = s.mem.readByte (ea.toNat + k)) ∧
        ∀ j, 8 * n ≤ j → j < 64 → v.getLsbD j = (signed && (s.mem.readByte (ea.toNat + n - 1)).getLsbD 7)) ∧
      (¬ Fits s ea n → exec (make rd rs1 imm) s = .next (faultedWith s (.loadAccessFault ea)))

/-- A store of `n` bytes (R120 to R122): its word (R75, R88); where the access fits, byte `k` of `x[rs2]` lies at
`ea + k`, the stored addresses join `Written`, and everything else is as before but the pc; where it does not, the fault,
and nothing else. -/
def StoreRule (make : Reg → Reg → BitVec 12 → Instr) (funct3 : BitVec 3) (n : Nat) : Prop :=
  ∀ rs2 rs1 imm11_5 imm4_0,
    decode (wordS imm11_5 rs2 rs1 funct3 imm4_0) = .ok (make rs2 rs1 (imm11_5 ++ imm4_0)) ∧
    ∀ s ea, ea = offsetBy (s.reg rs1) (imm11_5 ++ imm4_0 : BitVec 12).toInt →
      (Fits s ea n → ∃ t, exec (make rs2 rs1 (imm11_5 ++ imm4_0)) s = .next t ∧
        (∀ k < n, t.mem.readByte (ea.toNat + k) = (s.reg rs2).extractLsb' (8 * k) 8) ∧
        (∀ a, ¬ Among ea n a → t.mem.readByte a = s.mem.readByte a) ∧
        (∀ a, a ∈ t.written ↔ a ∈ s.written ∨ Among ea n a) ∧
        (∀ r, t.reg r = s.reg r) ∧ t.status = s.status ∧ t.platform = s.platform ∧ t.pc = s.pc + 4#64) ∧
      (¬ Fits s ea n → exec (make rs2 rs1 (imm11_5 ++ imm4_0)) s = .next (faultedWith s (.storeAccessFault ea)))

/-- A conditional branch (R160, R161): its word (R76, R89); taken to a multiple of 4, taken to another address, not
taken. Nothing but the pc or the status changes. -/
def BranchRule (make : Reg → Reg → BitVec 13 → Instr) (funct3 : BitVec 3) (cond : Word → Word → Prop) : Prop :=
  (∀ rs1 rs2 imm12 imm10_5 imm4_1 imm11,
    decode (wordB imm12 imm10_5 rs2 rs1 funct3 imm4_1 imm11) =
      .ok (make rs1 rs2 (imm12 ++ imm11 ++ imm10_5 ++ imm4_1 ++ 0#1))) ∧
  ∀ rs1 rs2 offset s target, target = offsetBy s.pc offset.toInt →
    (cond (s.reg rs1) (s.reg rs2) → target.toNat % 4 = 0 →
      exec (make rs1 rs2 offset) s = .next { s with pc := target }) ∧
    (cond (s.reg rs1) (s.reg rs2) → target.toNat % 4 ≠ 0 →
      exec (make rs1 rs2 offset) s = .next (faultedWith s (.instructionAddressMisaligned target))) ∧
    (¬ cond (s.reg rs1) (s.reg rs2) → exec (make rs1 rs2 offset) s = .next { s with pc := s.pc + 4#64 })

/-- The word at the pc, by its four bytes (R41). -/
def wordAtPc (s : State) : BitVec 32 :=
  s.mem.readByte (s.pc.toNat + 3) ++ s.mem.readByte (s.pc.toNat + 2) ++ s.mem.readByte (s.pc.toNat + 1) ++
    s.mem.readByte s.pc.toNat

/-- Running, and not where the run ends (R245). -/
def Steps (s : State) : Prop := s.status = .running ∧ s.pc ≠ s.platform.haltPc

/-- The four bytes at the pc are valid memory (R47). -/
def CodeValid (s : State) : Prop := ∀ k < 4, memValid s.platform (s.pc.toNat + k) = true

/-- No byte at the pc was written by a store of the run (R47). -/
def CodeUnwritten (s : State) : Prop := ∀ k < 4, s.pc.toNat + k ∉ s.written

/-- The word is refused under the name, and raises `IllegalInstruction` with itself wherever it is fetched (R95, R96). -/
def Refused (w : Insn) (name : Excluded) : Prop :=
  decode w = .error (.excluded name) ∧
    ∀ s : State, Steps s → s.pc.toNat % 4 = 0 → CodeValid s → CodeUnwritten s → wordAtPc s = w →
      step s = .next (faultedWith s (.illegalInstruction w))

end Sys2Proof.Claims

open Sys2Proof Sys2Proof.Machine Sys2Proof.Claims

/-! ### Encoding -/

/-- The words of R72 to R90: the decoder reads back every instruction some word encodes, with every operand. -/
def Obligations.DecodeOfEncode : Prop := ∀ i : Instr, i.wellFormed = true → decode (encode i) = .ok i

/-- The other direction: a word that decodes is the word of the instruction it decodes to, so no bit is dropped. -/
def Obligations.EncodeOfDecode : Prop := ∀ (w : Insn) (i : Instr), decode w = .ok i → encode i = w

/-- R80, R81: what the decoder answers is an instruction some word encodes. -/
def Obligations.DecodedIsWellFormed : Prop := ∀ (w : Insn) (i : Instr), decode w = .ok i → i.wellFormed = true

/-- R91: a word is the instruction of the one row of the table with `w & mask == match`; no word matches two rows. -/
def Obligations.DecodeFollowsOpcodeTable : Prop :=
  opcodeTable = tableRows ∧
  (∀ (w : Insn) (i : Instr), decode w = .ok i → opcodeRow i ∈ tableRows ∧ w &&& (opcodeRow i).mask = (opcodeRow i).value) ∧
  (∀ (w : Insn) (r : OpcodeRow), r ∈ tableRows → w &&& r.mask = r.value → ∃ i, decode w = .ok i ∧ opcodeRow i = r) ∧
  (∀ (w : Insn) (r q : OpcodeRow), r ∈ tableRows → q ∈ tableRows →
    w &&& r.mask = r.value → w &&& q.mask = q.value → r = q)

/-- The ten words 95_test_vectors.md S1 to S10 transcribes from the source decode to the instructions they stand for
(S9 with the opcode 90_conflicts.md C1 chooses; its printed word is refused). -/
def Obligations.PrintedWordsDecode : Prop :=
  decode 0x015A04B3#32 = .ok (.add 9#5 20#5 21#5) ∧
  decode 0x015A0493#32 = .ok (.addi 9#5 20#5 21#12) ∧
  decode 0x01853483#32 = .ok (.ld 9#5 10#5 24#12) ∧
  decode 0x018500E7#32 = .ok (.jalr 1#5 10#5 24#12) ∧
  decode 0x00499593#32 = .ok (.slli 11#5 19#5 4#6) ∧
  decode 0x003D09B7#32 = .ok (.lui 19#5 976#20) ∧
  decode 0x003D0317#32 = .ok (.auipc 6#5 976#20) ∧
  decode 0x0E953823#32 = .ok (.sd 9#5 10#5 240#12) ∧
  decode 0x7CB51863#32 = .ok (.bne 10#5 11#5 2000#13) ∧
  decode 0x7CB51867#32 = .error .unassigned ∧
  decode 0x7D00006F#32 = .ok (.jal 0#5 2000#21)

/-- R96: each excluded instruction's words are refused under its name and are illegal when fetched. -/
def Obligations.ExcludedWordsAreRefusedByName : Prop :=
  ∀ (imm : BitVec 12) (rs1 rs2 rd : BitVec 5) (funct3 : BitVec 3),
    Refused (wordI imm rs1 0b000#3 rd 0b0011011#7) .addiw ∧
    Refused (wordR 0b0000000#7 rs2 rs1 0b001#3 rd 0b0011011#7) .slliw ∧
    Refused (wordR 0b0000000#7 rs2 rs1 0b101#3 rd 0b0011011#7) .srliw ∧
    Refused (wordR 0b0100000#7 rs2 rs1 0b101#3 rd 0b0011011#7) .sraiw ∧
    Refused (wordR 0b0000000#7 rs2 rs1 0b000#3 rd 0b0111011#7) .addw ∧
    Refused (wordR 0b0100000#7 rs2 rs1 0b000#3 rd 0b0111011#7) .subw ∧
    Refused (wordR 0b0000000#7 rs2 rs1 0b001#3 rd 0b0111011#7) .sllw ∧
    Refused (wordR 0b0000000#7 rs2 rs1 0b101#3 rd 0b0111011#7) .srlw ∧
    Refused (wordR 0b0100000#7 rs2 rs1 0b101#3 rd 0b0111011#7) .sraw ∧
    Refused (wordI imm rs1 0b000#3 rd 0b0001111#7) .fence ∧
    Refused (wordI imm rs1 0b001#3 rd 0b0001111#7) .fenceI ∧
    Refused 0x00000073#32 .ecall ∧
    Refused 0x00100073#32 .ebreak ∧
    (funct3 ∈ [0b001#3, 0b010#3, 0b011#3, 0b101#3, 0b110#3, 0b111#3] →
      Refused (wordI imm rs1 funct3 rd 0b1110011#7) .csr) ∧
    Refused (wordR 0b0000001#7 rs2 rs1 funct3 rd 0b0110011#7) .mulDiv ∧
    Refused (wordR 0b0000001#7 rs2 rs1 funct3 rd 0b0111011#7) .mulDiv

/-! ### The step -/

/-- R245, R41: where the four bytes at the pc may be fetched and decode to `i`, the step is `exec` of `i`. -/
def Obligations.StepRunsDecodedInstruction : Prop :=
  ∀ (s : State) (i : Instr), Steps s → s.pc.toNat % 4 = 0 → CodeValid s → CodeUnwritten s →
    decode (wordAtPc s) = .ok i → step s = exec i s

/-- R47, R205, R208, R245: the checks of a step in their order, each fault with its information and nothing else changed;
past all of them the step is the instruction's. -/
def Obligations.StepChecksInOrder : Prop :=
  ∀ s : State, Steps s →
    (s.pc.toNat % 4 ≠ 0 → step s = .next (faultedWith s (.instructionAddressMisaligned s.pc))) ∧
    (s.pc.toNat % 4 = 0 → ¬ CodeValid s → step s = .next (faultedWith s (.instructionAccessFault s.pc))) ∧
    (s.pc.toNat % 4 = 0 → CodeValid s → ¬ CodeUnwritten s → step s = .next (faultedWith s (.fetchAfterStore s.pc))) ∧
    (s.pc.toNat % 4 = 0 → CodeValid s → CodeUnwritten s → fetchWord s s.pc = .ok (wordAtPc s) ∧
      ((∀ i, decode (wordAtPc s) ≠ .ok i) → step s = .next (faultedWith s (.illegalInstruction (wordAtPc s)))) ∧
      ∀ i, decode (wordAtPc s) = .ok i → step s = exec i s)

/-- R203: a fetched word that matches no row of the opcode table raises `IllegalInstruction` with the word. -/
def Obligations.WordsOfNoRowAreIllegal : Prop :=
  ∀ s : State, Steps s → s.pc.toNat % 4 = 0 → CodeValid s → CodeUnwritten s →
    (∀ r ∈ tableRows, wordAtPc s &&& r.mask ≠ r.value) →
    step s = .next (faultedWith s (.illegalInstruction (wordAtPc s)))

/-- R246: at `HALT_PC` the run ends and nothing is fetched. That ending is a step of its own is DEDUCED, log 7. -/
def Obligations.HaltPcEndsTheRun : Prop :=
  ∀ s : State, s.status = .running → s.pc = s.platform.haltPc → step s = .next { s with status := .halted }

/-- R201, R246: a run that is over has no next state; the stop names what the status records. The form of the stop is
DEDUCED, log 6. -/
def Obligations.EndedRunsHaveNoNextStep : Prop :=
  ∀ s : State, (s.status = .halted → step s = .fault .runHalted) ∧
    ∀ cause pc, s.status = .faulted cause pc → step s = .fault (.runFaulted cause pc)

/-- Exactly the running states have a next state, and nothing is ever refused. For a running state with `pc ≠ HALT_PC` the
next state is R245's. That one at `HALT_PC` has a next state, the `Halted` one of R246, is the MODEL's reading (DEDUCED,
log 7); that a `Halted` (R246, 93_implementation_defined.md U11) or `Faulted` (R201) state stops is log 6. -/
def Obligations.ExactlyRunningStatesStep : Prop :=
  ∀ s : State, (s.status = .running ↔ ∃ t, step s = .next t) ∧ ∀ r, step s ≠ .refused r

/-- R201: a step that ends in a fault changes the status and nothing else, records the pc of the instruction, and is the
last of the run. -/
def Obligations.FaultsArePrecise : Prop :=
  ∀ (s t : State) (cause : FaultCause) (pc : Word), step s = .next t → t.status = .faulted cause pc →
    pc = s.pc ∧ t = { s with status := .faulted cause s.pc } ∧ ∀ u, step t ≠ .next u

/-- Every step keeps the invariant of Safety.lean: R26, R31, R46, R201, R246 and the canonical forms. -/
def Obligations.StepKeepsInv : Prop := ∀ s t : State, Safety.Inv s → step s = .next t → Safety.Inv t

/-- R33, R241: a launch at a multiple of 4 with a memory in canonical form meets the invariant; so does `State.reset`. -/
def Obligations.LaunchMeetsInv : Prop :=
  (∀ l : Launch, l.resetPc.toNat % 4 = 0 → l.memInit.wf = true → Safety.Inv (State.launch l)) ∧ Safety.Inv State.reset

/-- R33: the state after reset, line by line, for the host's choices. -/
def Obligations.LaunchGivesTheResetState : Prop :=
  ∀ l : Launch, (State.launch l).reg 0#5 = 0#64 ∧
    (∀ k : Fin 31, (State.launch l).reg (BitVec.ofNat 5 (k.val + 1)) = l.xInit[k]) ∧
    (State.launch l).pc = l.resetPc ∧
    (∀ a, (State.launch l).mem.readByte a = l.memInit.readByte a) ∧
    (∀ a, a ∉ (State.launch l).written) ∧
    (State.launch l).status = .running ∧ (State.launch l).platform = l.platform

/-- What `State.reset` fills in where the spec leaves a parameter open: the MODEL's choice (logs 1, 2, 3, 5), with the
default `MEM_VALID` of R51. -/
def Obligations.ResetHoldsTheModelsChoices : Prop :=
  (∀ r, State.reset.reg r = 0#64) ∧ State.reset.pc = 0#64 ∧ (∀ a, State.reset.mem.readByte a = 0#8) ∧
    State.reset.platform.haltPc = 0xFFFFFFFFFFFFFFFF#64 ∧ ∀ a < 2 ^ 64, memValid State.reset.platform a = true

/-- R247, R34: no step changes `MEM_VALID` or `HALT_PC`. -/
def Obligations.StepKeepsPlatform : Prop := ∀ s t : State, step s = .next t → t.platform = s.platform

/-- R31, R55: along a run `Written` only grows, and a byte outside it is the byte the run started with. -/
def Obligations.UnwrittenBytesKeepTheirValue : Prop :=
  ∀ s t : State, Safety.Reaches s t →
    (∀ a ∈ s.written, a ∈ t.written) ∧ ∀ a, a ∉ t.written → t.mem.readByte a = s.mem.readByte a

/-- R58, R249: every word a run fetches is the word the host loaded there: no run executes bytes it stored. -/
def Obligations.FetchedCodeIsLoadedCode : Prop :=
  ∀ (l : Launch) (t : State) (w : Insn), Safety.Reaches (State.launch l) t → fetchWord t t.pc = .ok w →
    w = l.memInit.readByte (t.pc.toNat + 3) ++ l.memInit.readByte (t.pc.toNat + 2) ++
      l.memInit.readByte (t.pc.toNat + 1) ++ l.memInit.readByte t.pc.toNat

/-- R242: a word the host places at an aligned, valid pc of a running state is the instruction the very next step runs
(log 9). -/
def Obligations.PlacedWordRunsNext : Prop :=
  ∀ (s : State) (w : Nat) (i : Instr), Steps s → s.pc.toNat % 4 = 0 → CodeValid s → decodeTableWord 32 w = some i →
    step (s.withFetchWord 32 w) = exec i (s.withFetchWord 32 w)

/-- With nothing placed, the first step from `State.reset` raises `IllegalInstruction` on the word of zeros: R95 on the
MODEL's empty memory and reset pc (logs 2, 3, 9). -/
def Obligations.ResetWithoutProgramIsIllegal : Prop :=
  step State.reset = .next (faultedWith State.reset (.illegalInstruction 0#32))

/-! ### What instructions leave alone -/

/-- R30: no instruction but the four stores changes memory or `Written`. -/
def Obligations.OnlyStoresChangeMemory : Prop :=
  ∀ (i : Instr) (s t : State), exec i s = .next t → i.isStore = false → SameMemory s t

/-- R21: no instruction changes a register but the one its `rd` field names, and none changes `x0`. -/
def Obligations.OnlyTheDestinationChanges : Prop :=
  ∀ (i : Instr) (s t : State), exec i s = .next t →
    t.reg 0#5 = 0#64 ∧ ∀ r, i.destination ≠ some r → t.reg r = s.reg r

/-! ### Arithmetic -/

/-- R111, R112: the words of `add` and `sub`, and the sum and difference modulo 2^64. -/
def Obligations.AddSubModuloTwo64 : Prop :=
  RegisterRule .add 0b0000000#7 0b000#3 (fun a b v => v.toNat = (a.toNat + b.toNat) % 2 ^ 64) ∧
  RegisterRule .sub 0b0100000#7 0b000#3 (fun a b v => (v.toNat : Int) = ((a.toNat : Int) - b.toNat) % 2 ^ 64)

/-- R113: the word of `addi`, and the sum with the signed immediate modulo 2^64. -/
def Obligations.AddiAddsSignedImmediate : Prop :=
  ImmediateRule .addi 0b000#3 (fun a imm v => (v.toNat : Int) = ((a.toNat : Int) + imm.toInt) % 2 ^ 64)

/-- R114: the word of `auipc`, and its own pc plus the signed field times 4096 modulo 2^64. -/
def Obligations.AuipcAddsToItsOwnPc : Prop :=
  ∀ rd imm20, decode (wordU imm20 rd 0b0010111#7) = .ok (.auipc rd imm20) ∧
    Computes (.auipc rd imm20) rd fun s => offsetBy s.pc (imm20.toInt * 4096)

/-- R110, R181: after `add rd, a, b` with `rd` no source `a` and no `x0`, `sltu t, rd, a` is 1 exactly on a carry. -/
def Obligations.CarryTestAfterAdd : Prop :=
  ∀ (rd a b t : Reg) (s u : State), rd ≠ 0#5 → rd ≠ a → t ≠ 0#5 → exec (.add rd a b) s = .next u →
    ∃ v, exec (.sltu t rd a) u = .next v ∧
      v.reg t = if 2 ^ 64 ≤ (s.reg a).toNat + (s.reg b).toNat then 1#64 else 0#64

/-! ### Data transfer -/

/-- R123, R125, R126, R128, R129, R131, R132: the seven loads. -/
def Obligations.LoadsReadMemory : Prop :=
  LoadRule .ld 0b011#3 8 false ∧ LoadRule .lw 0b010#3 4 true ∧ LoadRule .lwu 0b110#3 4 false ∧
  LoadRule .lh 0b001#3 2 true ∧ LoadRule .lhu 0b101#3 2 false ∧ LoadRule .lb 0b000#3 1 true ∧ LoadRule .lbu 0b100#3 1 false

/-- R124, R127, R130, R133: the four stores. -/
def Obligations.StoresWriteMemory : Prop :=
  StoreRule .sd 0b011#3 8 ∧ StoreRule .sw 0b010#3 4 ∧ StoreRule .sh 0b001#3 2 ∧ StoreRule .sb 0b000#3 1

/-- R134: the word of `lui`; the field at bits 31:12, sign-extended; and the pair `lui rd, hi`, `addi rd, rd, lo` that
builds any 32-bit constant in the low half of `rd`. -/
def Obligations.LuiPlacesItsField : Prop :=
  (∀ rd imm20, decode (wordU imm20 rd 0b0110111#7) = .ok (.lui rd imm20) ∧
    Computes (.lui rd imm20) rd fun _ => BitVec.ofInt 64 (imm20.toInt * 4096)) ∧
  ∀ (c : BitVec 32) (rd : Reg) (s : State) (lo : BitVec 12) (hi : BitVec 20), rd ≠ 0#5 →
    lo = c.extractLsb' 0 12 → hi = (c - lo.signExtend 32).extractLsb' 12 20 →
    ∃ t u, exec (.lui rd hi) s = .next t ∧ exec (.addi rd rd lo) t = .next u ∧ (u.reg rd).extractLsb' 0 32 = c

/-- R43: what reads of other widths see after a doubleword write, and what each byte of memory is after any write. -/
def Obligations.MixedWidthReads : Prop :=
  (∀ (s t : State) (a : Word) (v : BitVec 64), memWrite s a 8 v = .ok t →
    (∀ k < 8, memRead t (a + BitVec.ofNat 64 k) 1 = .ok (v.extractLsb' (8 * k) 8)) ∧
    memRead t a 4 = .ok (v.extractLsb' 0 32) ∧ memRead t (a + 4#64) 4 = .ok (v.extractLsb' 32 32)) ∧
  (∀ (s t : State) (a : Word) (n : Nat) (v : BitVec (8 * n)), memWrite s a n v = .ok t →
    ∀ b, t.mem.readByte b = if a.toNat ≤ b ∧ b < a.toNat + n then v.extractLsb' (8 * (b - a.toNat)) 8 else s.mem.readByte b) ∧
  (∀ (s : State) (a : Word) (n : Nat) (v : BitVec (8 * n)), memRead s a n = .ok v →
    ∀ k < n, v.extractLsb' (8 * k) 8 = s.mem.readByte (a.toNat + k))

/-! ### Logical -/

/-- R141 to R143: the words of `and`, `or`, `xor`, and their results bit by bit. -/
def Obligations.LogicalRegisterForms : Prop :=
  RegisterRule .and 0b0000000#7 0b111#3 (fun a b v => ∀ i < 64, v.getLsbD i = (a.getLsbD i && b.getLsbD i)) ∧
  RegisterRule .or 0b0000000#7 0b110#3 (fun a b v => ∀ i < 64, v.getLsbD i = (a.getLsbD i || b.getLsbD i)) ∧
  RegisterRule .xor 0b0000000#7 0b100#3 (fun a b v => ∀ i < 64, v.getLsbD i = (a.getLsbD i != b.getLsbD i))

/-- R144 to R146: the words of `andi`, `ori`, `xori`, and their results bit by bit with the sign-extended immediate. -/
def Obligations.LogicalImmediateForms : Prop :=
  ImmediateRule .andi 0b111#3 (fun a imm v => ∀ i < 64, v.getLsbD i = (a.getLsbD i && immBit imm i)) ∧
  ImmediateRule .ori 0b110#3 (fun a imm v => ∀ i < 64, v.getLsbD i = (a.getLsbD i || immBit imm i)) ∧
  ImmediateRule .xori 0b100#3 (fun a imm v => ∀ i < 64, v.getLsbD i = (a.getLsbD i != immBit imm i))

/-! ### Shift -/

/-- R152 to R154, by the laws R150 and R151: the amount is the low six bits of `x[rs2]`. -/
def Obligations.ShiftRegisterForms : Prop :=
  RegisterRule .sll 0b0000000#7 0b001#3 (fun a b v => ShiftedLeft a (b.toNat % 64) v) ∧
  RegisterRule .srl 0b0000000#7 0b101#3 (fun a b v => ShiftedRight a (b.toNat % 64) v) ∧
  RegisterRule .sra 0b0100000#7 0b101#3 (fun a b v => ShiftedRightSigned a (b.toNat % 64) v)

/-- R155 to R157, by the laws R150 and R83: the amount is the 6-bit field. -/
def Obligations.ShiftImmediateForms : Prop :=
  ShiftRule .slli 0b000000#6 0b001#3 ShiftedLeft ∧ ShiftRule .srli 0b000000#6 0b101#3 ShiftedRight ∧
  ShiftRule .srai 0b010000#6 0b101#3 ShiftedRightSigned

/-! ### Conditional branch -/

/-- R163 to R168, by the laws R160 to R162: the six branches. -/
def Obligations.BranchesGoOrAdvance : Prop :=
  BranchRule .beq 0b000#3 (fun a b => a = b) ∧ BranchRule .bne 0b001#3 (fun a b => a ≠ b) ∧
  BranchRule .blt 0b100#3 (fun a b => a.toInt < b.toInt) ∧ BranchRule .bge 0b101#3 (fun a b => b.toInt ≤ a.toInt) ∧
  BranchRule .bltu 0b110#3 (fun a b => a.toNat < b.toNat) ∧ BranchRule .bgeu 0b111#3 (fun a b => b.toNat ≤ a.toNat)

/-! ### Unconditional branch -/

/-- R173, by the laws R170 and R171: the word of `jal`; the link and the target, or the fault and neither. -/
def Obligations.JalLinksAndJumps : Prop :=
  (∀ rd imm20 imm10_1 imm11 imm19_12, decode (wordJ imm20 imm10_1 imm11 imm19_12 rd) =
    .ok (.jal rd (imm20 ++ imm19_12 ++ imm11 ++ imm10_1 ++ 0#1))) ∧
  ∀ rd offset s target, target = offsetBy s.pc offset.toInt →
    (target.toNat % 4 = 0 → ∃ t, exec (.jal rd offset) s = .next t ∧ Sets s t rd (s.pc + 4#64) target) ∧
    (target.toNat % 4 ≠ 0 → exec (.jal rd offset) s = .next (faultedWith s (.instructionAddressMisaligned target)))

/-- R174, by the laws R170 and R171: the word of `jalr`; bit 0 of the sum is cleared; the link and the target, or the
fault and neither. -/
def Obligations.JalrLinksAndJumps : Prop :=
  ∀ rd rs1 imm, decode (wordI imm rs1 0b000#3 rd 0b1100111#7) = .ok (.jalr rd rs1 imm) ∧
    ∀ s sum target, sum = offsetBy (s.reg rs1) imm.toInt → target = BitVec.ofNat 64 (sum.toNat / 2 * 2) →
      (target.toNat % 4 = 0 → ∃ t, exec (.jalr rd rs1 imm) s = .next t ∧ Sets s t rd (s.pc + 4#64) target) ∧
      (target.toNat % 4 ≠ 0 →
        exec (.jalr rd rs1 imm) s = .next (faultedWith s (.instructionAddressMisaligned target)))

/-- R172: a return `jalr x0, 0(rd)` from wherever `rd` still holds the link goes to the instruction after the call, and
changes nothing but the pc. -/
def Obligations.ReturnFollowsCall : Prop :=
  ∀ (rd : Reg) (offset : BitVec 21) (s t u : State), rd ≠ 0#5 → s.pc.toNat % 4 = 0 → exec (.jal rd offset) s = .next t →
    t.status = .running → s.status = .running → u.reg rd = t.reg rd →
    exec (.jalr 0#5 rd 0#12) u = .next { u with pc := s.pc + 4#64 }

/-- R107: the pair `auipc rd, hi`, then `jalr` or an access with `lo`, reaches `pc + d` for every `d` in range, `pc`
being the address of the `auipc`; and the source's example. -/
def Obligations.FarOffsetReachesItsTarget : Prop :=
  (∀ (d : Word) (rd : Reg) (s : State) (lo : BitVec 12) (hi : BitVec 20), rd ≠ 0#5 →
    -(2 ^ 31 : Int) - 2 ^ 11 ≤ d.toInt → d.toInt < 2 ^ 31 - 2 ^ 11 →
    lo = d.extractLsb' 0 12 → hi = (d - lo.signExtend 64).extractLsb' 12 20 →
    ∃ t, exec (.auipc rd hi) s = .next t ∧ t.reg rd + lo.signExtend 64 = s.pc + d ∧
      loadAddress t rd lo = s.pc + d ∧ storeAddress t rd lo = s.pc + d ∧
      ((s.pc + d).toNat % 4 = 0 → ∀ link, ∃ u, exec (.jalr link rd lo) t = .next u ∧ u.pc = s.pc + d) ∧
      ∀ imm, d.getLsbD 11 = true → imm = d.extractLsb' 12 20 → hi = imm + 1#20) ∧
  Asm.farHigh 2000000#64 = 488#20 ∧ Asm.farLow 2000000#64 = 1152#12

/-! ### Compare -/

/-- R180 to R184: the words of the compare instructions, and the 64-bit integer 1 or 0 by the exact relation. -/
def Obligations.ComparesGiveOneOrZero : Prop :=
  RegisterRule .slt 0b0000000#7 0b010#3 (fun a b v => v = if a.toInt < b.toInt then 1#64 else 0#64) ∧
  RegisterRule .sltu 0b0000000#7 0b011#3 (fun a b v => v = if a.toNat < b.toNat then 1#64 else 0#64) ∧
  ImmediateRule .slti 0b010#3 (fun a imm v => v = if a.toInt < imm.toInt then 1#64 else 0#64) ∧
  ImmediateRule .sltiu 0b011#3
    (fun a imm v => v = if (a.toNat : Int) < imm.toInt % 2 ^ 64 then 1#64 else 0#64)

/-! ### Assembler notation -/

/-- R105: `nop` is `addi x0, x0, 0`, its word is `0x00000013`, and it changes nothing but the pc. -/
def Obligations.NopChangesOnlyThePc : Prop :=
  Asm.assemble 0#64 ["nop"] = some [0x00000013#32] ∧ decode 0x00000013#32 = .ok (.addi 0#5 0#5 0#12) ∧
    ∀ s : State, exec (.addi 0#5 0#5 0#12) s = .next { s with pc := s.pc + 4#64 }

/-- R22, R102: the symbolic names stand for the registers the table gives. -/
def Obligations.RegisterNamesResolve : Prop :=
  (∀ k : Fin 32, Asm.regNamed (String.ofList ('x' :: Nat.toDigits 10 k.val)) = some (BitVec.ofNat 5 k.val)) ∧
  (["zero", "ra", "sp", "gp", "tp", "t0", "t1", "t2", "s0", "s1", "a0", "a1", "a2", "a3", "a4", "a5", "a6", "a7", "s2", "s3",
    "s4", "s5", "s6", "s7", "s8", "s9", "s10", "s11", "t3", "t4", "t5", "t6"].map Asm.regNamed =
      (List.range 32).map fun k => some (BitVec.ofNat 5 k)) ∧
  Asm.regNamed "fp" = some 8#5 ∧ Asm.regNamed "v0" = some 10#5 ∧ Asm.regNamed "v1" = some 11#5

/-- R103: a signed or unsigned field takes exactly the numbers of its range, and holds the number it takes. -/
def Obligations.FieldsHoldExactlyTheirRange : Prop :=
  (∀ (w : Nat) (n : Int) (v : BitVec w), 0 < w → (Asm.signedField w n = some v ↔ v.toInt = n)) ∧
  (∀ (w : Nat) (n : Int) (v : BitVec w), Asm.unsignedField w n = some v ↔ (v.toNat : Int) = n)

/-- R103, R104: a statement assembles only to an instruction some word encodes. -/
def Obligations.AssembledIsWellFormed : Prop :=
  ∀ (st : Asm.Statement) (i : Instr), st.instr = some i → i.wellFormed = true
end

