-- ==== Sys2Proof/Laws/Decode.lean ====
section
/-!
SUPPORT. The fields of an encoded word: what each format's encoder puts where the decoder looks.
-/

namespace Sys2Proof

open BitVec

/-! ### R-type (R72) -/

section

variable (f7 : BitVec 7) (rs2 rs1 : Reg) (f3 : BitVec 3) (rd : Reg) (op : BitVec 7)

@[simp] theorem fieldOpcode_encodeR :
    fieldOpcode (encodeR f7 rs2 rs1 f3 rd op) = op := by
  unfold fieldOpcode encodeR
  erw [extractLsb'_append_eq_of_add_le (by decide)]
  simp

@[simp] theorem fieldRd_encodeR :
    fieldRd (encodeR f7 rs2 rs1 f3 rd op) = rd := by
  unfold fieldRd encodeR
  erw [extractLsb'_append_eq_of_le (by decide), extractLsb'_append_eq_of_add_le (by decide)]
  simp

@[simp] theorem fieldFunct3_encodeR :
    fieldFunct3 (encodeR f7 rs2 rs1 f3 rd op) = f3 := by
  unfold fieldFunct3 encodeR
  erw [extractLsb'_append_eq_of_le (by decide), extractLsb'_append_eq_of_le (by decide),
    extractLsb'_append_eq_of_add_le (by decide)]
  simp

@[simp] theorem fieldRs1_encodeR :
    fieldRs1 (encodeR f7 rs2 rs1 f3 rd op) = rs1 := by
  unfold fieldRs1 encodeR
  erw [extractLsb'_append_eq_of_le (by decide), extractLsb'_append_eq_of_le (by decide),
    extractLsb'_append_eq_of_le (by decide), extractLsb'_append_eq_of_add_le (by decide)]
  simp

@[simp] theorem fieldRs2_encodeR :
    fieldRs2 (encodeR f7 rs2 rs1 f3 rd op) = rs2 := by
  unfold fieldRs2 encodeR
  erw [extractLsb'_append_eq_of_le (by decide), extractLsb'_append_eq_of_le (by decide),
    extractLsb'_append_eq_of_le (by decide), extractLsb'_append_eq_of_le (by decide),
    extractLsb'_append_eq_of_add_le (by decide)]
  simp

@[simp] theorem fieldFunct7_encodeR :
    fieldFunct7 (encodeR f7 rs2 rs1 f3 rd op) = f7 := by
  unfold fieldFunct7 encodeR
  erw [extractLsb'_append_eq_of_le (by decide), extractLsb'_append_eq_of_le (by decide),
    extractLsb'_append_eq_of_le (by decide), extractLsb'_append_eq_of_le (by decide),
    extractLsb'_append_eq_of_le (by decide)]
  simp

end

/-! ### I-type (R73) -/

section

variable (imm : BitVec 12) (rs1 : Reg) (f3 : BitVec 3) (rd : Reg) (op : BitVec 7)

@[simp] theorem fieldOpcode_encodeI :
    fieldOpcode (encodeI imm rs1 f3 rd op) = op := by
  unfold fieldOpcode encodeI
  erw [extractLsb'_append_eq_of_add_le (by decide)]
  simp

@[simp] theorem fieldRd_encodeI :
    fieldRd (encodeI imm rs1 f3 rd op) = rd := by
  unfold fieldRd encodeI
  erw [extractLsb'_append_eq_of_le (by decide), extractLsb'_append_eq_of_add_le (by decide)]
  simp

@[simp] theorem fieldFunct3_encodeI :
    fieldFunct3 (encodeI imm rs1 f3 rd op) = f3 := by
  unfold fieldFunct3 encodeI
  erw [extractLsb'_append_eq_of_le (by decide), extractLsb'_append_eq_of_le (by decide),
    extractLsb'_append_eq_of_add_le (by decide)]
  simp

@[simp] theorem fieldRs1_encodeI :
    fieldRs1 (encodeI imm rs1 f3 rd op) = rs1 := by
  unfold fieldRs1 encodeI
  erw [extractLsb'_append_eq_of_le (by decide), extractLsb'_append_eq_of_le (by decide),
    extractLsb'_append_eq_of_le (by decide), extractLsb'_append_eq_of_add_le (by decide)]
  simp

@[simp] theorem fieldImmI_encodeI :
    fieldImmI (encodeI imm rs1 f3 rd op) = imm := by
  unfold fieldImmI encodeI
  erw [extractLsb'_append_eq_of_le (by decide), extractLsb'_append_eq_of_le (by decide),
    extractLsb'_append_eq_of_le (by decide), extractLsb'_append_eq_of_le (by decide)]
  simp

end

/-! ### Immediate-shift sub-form (R73) -/

section

variable (f6 sh : BitVec 6) (rs1 : Reg) (f3 : BitVec 3) (rd : Reg)

@[simp] theorem fieldOpcode_encodeShift :
    fieldOpcode (encodeShift f6 sh rs1 f3 rd) = 0b0010011#7 := by
  unfold fieldOpcode encodeShift
  erw [extractLsb'_append_eq_of_add_le (by decide)]
  simp

@[simp] theorem fieldRd_encodeShift :
    fieldRd (encodeShift f6 sh rs1 f3 rd) = rd := by
  unfold fieldRd encodeShift
  erw [extractLsb'_append_eq_of_le (by decide), extractLsb'_append_eq_of_add_le (by decide)]
  simp

@[simp] theorem fieldFunct3_encodeShift :
    fieldFunct3 (encodeShift f6 sh rs1 f3 rd) = f3 := by
  unfold fieldFunct3 encodeShift
  erw [extractLsb'_append_eq_of_le (by decide), extractLsb'_append_eq_of_le (by decide),
    extractLsb'_append_eq_of_add_le (by decide)]
  simp

@[simp] theorem fieldRs1_encodeShift :
    fieldRs1 (encodeShift f6 sh rs1 f3 rd) = rs1 := by
  unfold fieldRs1 encodeShift
  erw [extractLsb'_append_eq_of_le (by decide), extractLsb'_append_eq_of_le (by decide),
    extractLsb'_append_eq_of_le (by decide), extractLsb'_append_eq_of_add_le (by decide)]
  simp

@[simp] theorem fieldShamt_encodeShift :
    fieldShamt (encodeShift f6 sh rs1 f3 rd) = sh := by
  unfold fieldShamt encodeShift
  erw [extractLsb'_append_eq_of_le (by decide), extractLsb'_append_eq_of_le (by decide),
    extractLsb'_append_eq_of_le (by decide), extractLsb'_append_eq_of_le (by decide),
    extractLsb'_append_eq_of_add_le (by decide)]
  simp

@[simp] theorem fieldFunct6_encodeShift :
    fieldFunct6 (encodeShift f6 sh rs1 f3 rd) = f6 := by
  unfold fieldFunct6 encodeShift
  erw [extractLsb'_append_eq_of_le (by decide), extractLsb'_append_eq_of_le (by decide),
    extractLsb'_append_eq_of_le (by decide), extractLsb'_append_eq_of_le (by decide),
    extractLsb'_append_eq_of_le (by decide)]
  simp

end

/-! ### U-type (R74) -/

section

variable (imm20 : BitVec 20) (rd : Reg) (op : BitVec 7)

@[simp] theorem fieldOpcode_encodeU :
    fieldOpcode (encodeU imm20 rd op) = op := by
  unfold fieldOpcode encodeU
  erw [extractLsb'_append_eq_of_add_le (by decide)]
  simp

@[simp] theorem fieldRd_encodeU :
    fieldRd (encodeU imm20 rd op) = rd := by
  unfold fieldRd encodeU
  erw [extractLsb'_append_eq_of_le (by decide), extractLsb'_append_eq_of_add_le (by decide)]
  simp

@[simp] theorem fieldImmU_encodeU :
    fieldImmU (encodeU imm20 rd op) = imm20 := by
  unfold fieldImmU encodeU
  erw [extractLsb'_append_eq_of_le (by decide), extractLsb'_append_eq_of_le (by decide)]
  simp

end

/-! ### S-type (R75, R79) -/

section

variable (imm : BitVec 12) (rs2 rs1 : Reg) (f3 : BitVec 3)

@[simp] theorem fieldOpcode_encodeS :
    fieldOpcode (encodeS imm rs2 rs1 f3) = 0b0100011#7 := by
  unfold fieldOpcode encodeS
  erw [extractLsb'_append_eq_of_add_le (by decide)]
  simp

@[simp] theorem fieldFunct3_encodeS :
    fieldFunct3 (encodeS imm rs2 rs1 f3) = f3 := by
  unfold fieldFunct3 encodeS
  erw [extractLsb'_append_eq_of_le (by decide), extractLsb'_append_eq_of_le (by decide),
    extractLsb'_append_eq_of_add_le (by decide)]
  simp

@[simp] theorem fieldRs1_encodeS :
    fieldRs1 (encodeS imm rs2 rs1 f3) = rs1 := by
  unfold fieldRs1 encodeS
  erw [extractLsb'_append_eq_of_le (by decide), extractLsb'_append_eq_of_le (by decide),
    extractLsb'_append_eq_of_le (by decide), extractLsb'_append_eq_of_add_le (by decide)]
  simp

@[simp] theorem fieldRs2_encodeS :
    fieldRs2 (encodeS imm rs2 rs1 f3) = rs2 := by
  unfold fieldRs2 encodeS
  erw [extractLsb'_append_eq_of_le (by decide), extractLsb'_append_eq_of_le (by decide),
    extractLsb'_append_eq_of_le (by decide), extractLsb'_append_eq_of_le (by decide),
    extractLsb'_append_eq_of_add_le (by decide)]
  simp

@[simp] theorem fieldImmS_encodeS : fieldImmS (encodeS imm rs2 rs1 f3) = imm := by
  unfold fieldImmS
  have hi : (encodeS imm rs2 rs1 f3).extractLsb' 25 7 = imm.extractLsb' 5 7 := by
    unfold encodeS
    erw [extractLsb'_append_eq_of_le (by decide), extractLsb'_append_eq_of_le (by decide),
    extractLsb'_append_eq_of_le (by decide), extractLsb'_append_eq_of_le (by decide),
    extractLsb'_append_eq_of_le (by decide)]
    simp
  have lo : (encodeS imm rs2 rs1 f3).extractLsb' 7 5 = imm.extractLsb' 0 5 := by
    unfold encodeS
    erw [extractLsb'_append_eq_of_le (by decide), extractLsb'_append_eq_of_add_le (by decide)]
    simp
  rw [hi, lo]
  apply BitVec.eq_of_getLsbD_eq
  intro i h
  simp only [getLsbD_append, getLsbD_extractLsb']
  interval_cases i <;> simp

end

/-! ### B-type (R76, R80) -/

section

variable (off : BitVec 13) (rs2 rs1 : Reg) (f3 : BitVec 3)

@[simp] theorem fieldOpcode_encodeB :
    fieldOpcode (encodeB off rs2 rs1 f3) = 0b1100011#7 := by
  unfold fieldOpcode encodeB
  erw [extractLsb'_append_eq_of_add_le (by decide)]
  simp

@[simp] theorem fieldFunct3_encodeB :
    fieldFunct3 (encodeB off rs2 rs1 f3) = f3 := by
  unfold fieldFunct3 encodeB
  erw [extractLsb'_append_eq_of_le (by decide), extractLsb'_append_eq_of_le (by decide),
    extractLsb'_append_eq_of_le (by decide), extractLsb'_append_eq_of_add_le (by decide)]
  simp

@[simp] theorem fieldRs1_encodeB :
    fieldRs1 (encodeB off rs2 rs1 f3) = rs1 := by
  unfold fieldRs1 encodeB
  erw [extractLsb'_append_eq_of_le (by decide), extractLsb'_append_eq_of_le (by decide),
    extractLsb'_append_eq_of_le (by decide), extractLsb'_append_eq_of_le (by decide),
    extractLsb'_append_eq_of_add_le (by decide)]
  simp

@[simp] theorem fieldRs2_encodeB :
    fieldRs2 (encodeB off rs2 rs1 f3) = rs2 := by
  unfold fieldRs2 encodeB
  erw [extractLsb'_append_eq_of_le (by decide), extractLsb'_append_eq_of_le (by decide),
    extractLsb'_append_eq_of_le (by decide), extractLsb'_append_eq_of_le (by decide),
    extractLsb'_append_eq_of_le (by decide), extractLsb'_append_eq_of_add_le (by decide)]
  simp

theorem fieldImmB_encodeB (h : evenOffset off = true) : fieldImmB (encodeB off rs2 rs1 f3) = off := by
  unfold fieldImmB
  have b12 : (encodeB off rs2 rs1 f3).extractLsb' 31 1 = off.extractLsb' 12 1 := by
    unfold encodeB
    erw [extractLsb'_append_eq_of_le (by decide), extractLsb'_append_eq_of_le (by decide),
    extractLsb'_append_eq_of_le (by decide), extractLsb'_append_eq_of_le (by decide),
    extractLsb'_append_eq_of_le (by decide), extractLsb'_append_eq_of_le (by decide),
    extractLsb'_append_eq_of_le (by decide)]
    simp
  have b11 : (encodeB off rs2 rs1 f3).extractLsb' 7 1 = off.extractLsb' 11 1 := by
    unfold encodeB
    erw [extractLsb'_append_eq_of_le (by decide), extractLsb'_append_eq_of_add_le (by decide)]
    simp
  have hi : (encodeB off rs2 rs1 f3).extractLsb' 25 6 = off.extractLsb' 5 6 := by
    unfold encodeB
    erw [extractLsb'_append_eq_of_le (by decide), extractLsb'_append_eq_of_le (by decide),
    extractLsb'_append_eq_of_le (by decide), extractLsb'_append_eq_of_le (by decide),
    extractLsb'_append_eq_of_le (by decide), extractLsb'_append_eq_of_le (by decide),
    extractLsb'_append_eq_of_add_le (by decide)]
    simp
  have lo : (encodeB off rs2 rs1 f3).extractLsb' 8 4 = off.extractLsb' 1 4 := by
    unfold encodeB
    erw [extractLsb'_append_eq_of_le (by decide), extractLsb'_append_eq_of_le (by decide),
    extractLsb'_append_eq_of_add_le (by decide)]
    simp
  rw [b12, b11, hi, lo]
  have h0 : off[0] = false := by simpa [evenOffset] using h
  apply BitVec.eq_of_getLsbD_eq
  intro i h
  simp only [getLsbD_append, getLsbD_extractLsb']
  interval_cases i <;> simp [h0]

end

/-! ### J-type (R77, R81) -/

section

variable (off : BitVec 21) (rd : Reg)

@[simp] theorem fieldOpcode_encodeJ :
    fieldOpcode (encodeJ off rd) = 0b1101111#7 := by
  unfold fieldOpcode encodeJ
  erw [extractLsb'_append_eq_of_add_le (by decide)]
  simp

@[simp] theorem fieldRd_encodeJ :
    fieldRd (encodeJ off rd) = rd := by
  unfold fieldRd encodeJ
  erw [extractLsb'_append_eq_of_le (by decide), extractLsb'_append_eq_of_add_le (by decide)]
  simp

theorem fieldImmJ_encodeJ (h : evenOffset off = true) : fieldImmJ (encodeJ off rd) = off := by
  unfold fieldImmJ
  have b20 : (encodeJ off rd).extractLsb' 31 1 = off.extractLsb' 20 1 := by
    unfold encodeJ
    erw [extractLsb'_append_eq_of_le (by decide), extractLsb'_append_eq_of_le (by decide),
    extractLsb'_append_eq_of_le (by decide), extractLsb'_append_eq_of_le (by decide),
    extractLsb'_append_eq_of_le (by decide)]
    simp
  have mid : (encodeJ off rd).extractLsb' 12 8 = off.extractLsb' 12 8 := by
    unfold encodeJ
    erw [extractLsb'_append_eq_of_le (by decide), extractLsb'_append_eq_of_le (by decide),
    extractLsb'_append_eq_of_add_le (by decide)]
    simp
  have b11 : (encodeJ off rd).extractLsb' 20 1 = off.extractLsb' 11 1 := by
    unfold encodeJ
    erw [extractLsb'_append_eq_of_le (by decide), extractLsb'_append_eq_of_le (by decide),
    extractLsb'_append_eq_of_le (by decide), extractLsb'_append_eq_of_add_le (by decide)]
    simp
  have lo : (encodeJ off rd).extractLsb' 21 10 = off.extractLsb' 1 10 := by
    unfold encodeJ
    erw [extractLsb'_append_eq_of_le (by decide), extractLsb'_append_eq_of_le (by decide),
    extractLsb'_append_eq_of_le (by decide), extractLsb'_append_eq_of_le (by decide),
    extractLsb'_append_eq_of_add_le (by decide)]
    simp
  rw [b20, mid, b11, lo]
  have h0 : off[0] = false := by simpa [evenOffset] using h
  apply BitVec.eq_of_getLsbD_eq
  intro i h
  simp only [getLsbD_append, getLsbD_extractLsb']
  interval_cases i <;> simp [h0]

end

end Sys2Proof
end

