-- ==== Sys2Proof/Laws/State.lean ====
section
/-!
SUPPORT. One lemma per field per update of the state, and the laws of the register file.
-/

namespace Sys2Proof.Machine

/-! ### `setPc` -/

@[simp] theorem State.setPc_x (s : State) (t : Word) : (s.setPc t).x = s.x := rfl
@[simp] theorem State.setPc_pc (s : State) (t : Word) : (s.setPc t).pc = t := rfl
@[simp] theorem State.setPc_mem (s : State) (t : Word) : (s.setPc t).mem = s.mem := rfl
@[simp] theorem State.setPc_written (s : State) (t : Word) : (s.setPc t).written = s.written := rfl
@[simp] theorem State.setPc_status (s : State) (t : Word) : (s.setPc t).status = s.status := rfl
@[simp] theorem State.setPc_platform (s : State) (t : Word) : (s.setPc t).platform = s.platform := rfl
@[simp] theorem State.setPc_reg (s : State) (t : Word) (r : Reg) : (s.setPc t).reg r = s.reg r := rfl

/-! ### `advance` -/

@[simp] theorem State.advance_x (s : State) : s.advance.x = s.x := rfl
@[simp] theorem State.advance_pc (s : State) : s.advance.pc = s.pc + 4#64 := rfl
@[simp] theorem State.advance_mem (s : State) : s.advance.mem = s.mem := rfl
@[simp] theorem State.advance_written (s : State) : s.advance.written = s.written := rfl
@[simp] theorem State.advance_status (s : State) : s.advance.status = s.status := rfl
@[simp] theorem State.advance_platform (s : State) : s.advance.platform = s.platform := rfl
@[simp] theorem State.advance_reg (s : State) (r : Reg) : s.advance.reg r = s.reg r := rfl

/-! ### `raise` -/

@[simp] theorem raise_x (c : FaultCause) (s : State) : (raise c s).x = s.x := rfl
@[simp] theorem raise_pc (c : FaultCause) (s : State) : (raise c s).pc = s.pc := rfl
@[simp] theorem raise_mem (c : FaultCause) (s : State) : (raise c s).mem = s.mem := rfl
@[simp] theorem raise_written (c : FaultCause) (s : State) : (raise c s).written = s.written := rfl
@[simp] theorem raise_status (c : FaultCause) (s : State) : (raise c s).status = .faulted c s.pc := rfl
@[simp] theorem raise_platform (c : FaultCause) (s : State) : (raise c s).platform = s.platform := rfl
@[simp] theorem raise_reg (c : FaultCause) (s : State) (r : Reg) : (raise c s).reg r = s.reg r := rfl

/-! ### `haltRun` -/

@[simp] theorem haltRun_x (s : State) : (haltRun s).x = s.x := rfl
@[simp] theorem haltRun_pc (s : State) : (haltRun s).pc = s.pc := rfl
@[simp] theorem haltRun_mem (s : State) : (haltRun s).mem = s.mem := rfl
@[simp] theorem haltRun_written (s : State) : (haltRun s).written = s.written := rfl
@[simp] theorem haltRun_status (s : State) : (haltRun s).status = .halted := rfl
@[simp] theorem haltRun_platform (s : State) : (haltRun s).platform = s.platform := rfl
@[simp] theorem haltRun_reg (s : State) (r : Reg) : (haltRun s).reg r = s.reg r := rfl

/-! ### `placeWord` -/

@[simp] theorem State.placeWord_x (s : State) (a : Word) (w : Insn) : (s.placeWord a w).x = s.x := rfl
@[simp] theorem State.placeWord_pc (s : State) (a : Word) (w : Insn) : (s.placeWord a w).pc = s.pc := rfl
@[simp] theorem State.placeWord_mem (s : State) (a : Word) (w : Insn) :
    (s.placeWord a w).mem = s.mem.write a.toNat w 4 := rfl
@[simp] theorem State.placeWord_written (s : State) (a : Word) (w : Insn) :
    (s.placeWord a w).written = s.written.eraseRange a.toNat 4 := rfl
@[simp] theorem State.placeWord_status (s : State) (a : Word) (w : Insn) : (s.placeWord a w).status = s.status := rfl
@[simp] theorem State.placeWord_platform (s : State) (a : Word) (w : Insn) :
    (s.placeWord a w).platform = s.platform := rfl
@[simp] theorem State.placeWord_reg (s : State) (a : Word) (w : Insn) (r : Reg) :
    (s.placeWord a w).reg r = s.reg r := rfl

/-! ### `setReg` -/

@[simp] theorem State.setReg_pc (s : State) (r : Reg) (v : Word) : (s.setReg r v).pc = s.pc := by
  unfold State.setReg; split <;> rfl
@[simp] theorem State.setReg_mem (s : State) (r : Reg) (v : Word) : (s.setReg r v).mem = s.mem := by
  unfold State.setReg; split <;> rfl
@[simp] theorem State.setReg_written (s : State) (r : Reg) (v : Word) : (s.setReg r v).written = s.written := by
  unfold State.setReg; split <;> rfl
@[simp] theorem State.setReg_status (s : State) (r : Reg) (v : Word) : (s.setReg r v).status = s.status := by
  unfold State.setReg; split <;> rfl
@[simp] theorem State.setReg_platform (s : State) (r : Reg) (v : Word) : (s.setReg r v).platform = s.platform := by
  unfold State.setReg; split <;> rfl

/-- Every register after a write: the written one holds the value, unless it is `x0`. -/
theorem State.reg_setReg (s : State) (r q : Reg) (v : Word) :
    (s.setReg r v).reg q = if q = r ∧ q ≠ 0#5 then v else s.reg q := by
  by_cases hq : q = 0#5
  · simp [State.reg, hq]
  by_cases hr : r = 0#5
  · have : q ≠ r := fun h => hq (h.trans hr)
    simp [State.setReg, hr, hq]
  have hq' : q.toNat ≠ 0 := fun h => hq (BitVec.eq_of_toNat_eq (by simpa using h))
  have hr' : r.toNat ≠ 0 := fun h => hr (BitVec.eq_of_toNat_eq (by simpa using h))
  by_cases h : q = r
  · subst h; simp [State.reg, State.setReg, hq]
  · have hne : r.toNat - 1 ≠ q.toNat - 1 := fun e => h (BitVec.eq_of_toNat_eq (by omega))
    simp [State.reg, State.setReg, hq, hr, h, hne]

@[simp] theorem State.reg_zero (s : State) : s.reg 0#5 = 0#64 := by simp [State.reg]

@[simp] theorem State.setReg_zero (s : State) (v : Word) : s.setReg 0#5 v = s := by simp [State.setReg]

theorem State.reg_setReg_self (s : State) {r : Reg} (h : r ≠ 0#5) (v : Word) : (s.setReg r v).reg r = v := by
  simp [State.reg_setReg, h]

theorem State.reg_setReg_other (s : State) {r q : Reg} (h : q ≠ r) (v : Word) : (s.setReg r v).reg q = s.reg q := by
  simp [State.reg_setReg, h]

end Sys2Proof.Machine
end

