-- ==== Sys2Proof/Laws/Memory.lean ====
section
/-!
SUPPORT. The laws of memory and of address sets: read after write, frames, and the canonical forms.
-/

namespace Sys2Proof.Machine

open Sys2Proof.Config

/-! ### One byte -/

theorem Memory.mem_of_mem_erase {m : Memory} {a : Nat} {c : Host.Cell} (h : c ∈ Memory.erase m a) :
    c ∈ m ∧ c.1 ≠ a := by
  simpa [Memory.erase] using h

theorem Memory.readByte_erase (m : Memory) (a b : Nat) :
    (Memory.erase m a).readByte b = if b = a then unlistedByte else m.readByte b := by
  induction m with
  | nil => simp [Memory.erase, Memory.readByte]
  | cons c rest ih =>
    obtain ⟨k, v⟩ := c
    simp only [Memory.erase] at ih
    by_cases hk : k = a
    · subst hk
      by_cases hb : b = k
      · subst hb; simpa [Memory.erase, Memory.readByte] using ih
      · simp [Memory.erase, Memory.readByte, ih, hb, Ne.symm hb]
    · by_cases hkb : k = b
      · subst hkb; simp [Memory.erase, Memory.readByte, hk]
      · simp [Memory.erase, Memory.readByte, hk, hkb, ih]

theorem Memory.readByte_list (m : Memory) (a b : Nat) (v : Byte) (h : ∀ c ∈ m, c.1 ≠ a) :
    (Memory.list m a v).readByte b = if b = a then v else m.readByte b := by
  induction m with
  | nil => simp [Memory.list, Memory.readByte, eq_comm]
  | cons c rest ih =>
    obtain ⟨k, u⟩ := c
    have hk : k ≠ a := h (k, u) (by simp)
    have ih := ih fun c hc => h c (by simp [hc])
    unfold Memory.list
    split
    · simp [Memory.readByte, eq_comm]
    · simp only [Memory.readByte, ih]
      by_cases hkb : k = b
      · subst hkb; simp [hk]
      · simp [hkb]

/-- Every byte after a write of one byte. -/
theorem Memory.readByte_writeByte (m : Memory) (a b : Nat) (v : Byte) :
    (Memory.writeByte m a v).readByte b = if b = a then v else m.readByte b := by
  unfold Memory.writeByte
  split
  · rename_i h; subst h; exact Memory.readByte_erase m a b
  · rw [Memory.readByte_list _ _ _ _ fun c hc => (Memory.mem_of_mem_erase hc).2, Memory.readByte_erase]
    split <;> rfl

/-! ### Wide accesses -/

/-- Every byte after a write of `n` bytes (R46): byte `k` of the value lies at `a + k`, the others are as before. -/
theorem Memory.readByte_write (m : Memory) (a b : Nat) {w : Nat} (v : BitVec w) (n : Nat) :
    (Memory.write m a v n).readByte b =
      if a ≤ b ∧ b < a + n then v.extractLsb' (8 * (b - a)) 8 else m.readByte b := by
  induction n with
  | zero => simp only [Memory.write]; rw [if_neg (by omega)]
  | succ n ih =>
    simp only [Memory.write, Memory.readByte_writeByte, ih]
    by_cases hb : b = a + n
    · subst hb; simp
    · rw [if_neg hb]
      by_cases h : a ≤ b ∧ b < a + n
      · rw [if_pos h, if_pos ⟨h.1, by omega⟩]
      · rw [if_neg h, if_neg (by omega)]

/-- Every bit of a read of `n` bytes (R45): byte `k` of the value is the byte at `a + k`. -/
theorem Memory.getLsbD_read (m : Memory) (a n i : Nat) :
    (Memory.read m a n).getLsbD i = (decide (i < 8 * n) && (m.readByte (a + i / 8)).getLsbD (i % 8)) := by
  induction n generalizing a i with
  | zero => simp [Memory.read]
  | succ n ih =>
    simp only [Memory.read, BitVec.getLsbD_append, ih]
    by_cases h : i < 8
    · have h0 : i / 8 = 0 := by omega
      have h1 : i % 8 = i := by omega
      simp [h, h0, h1]; omega
    · have e1 : (i - 8) / 8 = i / 8 - 1 := by omega
      have e2 : (i - 8) % 8 = i % 8 := by omega
      have e3 : a + 1 + (i / 8 - 1) = a + i / 8 := by omega
      have e4 : (i - 8 < 8 * n) ↔ i < 8 * (n + 1) := by omega
      simp only [h, if_false, e1, e2, e3, e4]

/-- A read depends only on the bytes it reads. -/
theorem Memory.read_congr {m m' : Memory} {a n : Nat}
    (h : ∀ k < n, Memory.readByte m (a + k) = Memory.readByte m' (a + k)) : Memory.read m a n = Memory.read m' a n := by
  induction n generalizing a with
  | zero => rfl
  | succ n ih =>
    have h0 := h 0 (by omega)
    have ih := ih (a := a + 1) fun k hk => by
      have := h (k + 1) (by omega)
      rwa [show a + (k + 1) = a + 1 + k by omega] at this
    simp only [Nat.add_zero] at h0
    simp only [Memory.read, ih, h0]

/-! ### The canonical form -/

theorem Memory.wf_iff (m : Memory) :
    m.wf = true ↔ m.Pairwise (fun c d => c.1 < d.1) ∧ ∀ c ∈ m, c.1 < 2 ^ 64 ∧ c.2 ≠ unlistedByte := by
  simp [Memory.wf]

theorem Memory.erase_wf {m : Memory} (h : m.wf = true) (a : Nat) : (Memory.erase m a).wf = true := by
  rw [Memory.wf_iff] at *
  exact ⟨h.1.filter _, fun c hc => h.2 c (Memory.mem_of_mem_erase hc).1⟩

theorem Memory.mem_list {m : Memory} {a : Nat} {v : Byte} {c : Host.Cell} :
    c ∈ Memory.list m a v ↔ c = (a, v) ∨ c ∈ m := by
  induction m with
  | nil => simp [Memory.list]
  | cons d rest ih =>
    obtain ⟨k, u⟩ := d
    unfold Memory.list
    split
    · simp
    · simp only [List.mem_cons, ih]; tauto

theorem Memory.list_wf {m : Memory} (h : m.wf = true) {a : Nat} {v : Byte} (ha : a < 2 ^ 64) (hv : v ≠ unlistedByte)
    (hn : ∀ c ∈ m, c.1 ≠ a) : (Memory.list m a v).wf = true := by
  rw [Memory.wf_iff] at *
  refine ⟨?_, fun c hc => ?_⟩
  · induction m with
    | nil => simp [Memory.list]
    | cons d rest ih =>
      obtain ⟨k, u⟩ := d
      have hp := List.pairwise_cons.mp h.1
      unfold Memory.list
      split
      · rename_i hlt
        refine List.pairwise_cons.mpr ⟨fun c hc => ?_, h.1⟩
        rcases List.mem_cons.mp hc with rfl | hc
        · exact hlt
        · exact Nat.lt_trans hlt (hp.1 c hc)
      · rename_i hlt
        have hk : k ≠ a := hn (k, u) (by simp)
        refine List.pairwise_cons.mpr ⟨fun c hc => ?_, ih ⟨hp.2, fun c hc => h.2 c (by simp [hc])⟩ fun c hc =>
          hn c (by simp [hc])⟩
        rcases Memory.mem_list.mp hc with rfl | hc
        · show k < a; omega
        · exact hp.1 c hc
  · rcases Memory.mem_list.mp hc with rfl | hc
    · exact ⟨ha, hv⟩
    · exact h.2 c hc

/-- A write of one byte below 2^64 keeps the canonical form. -/
theorem Memory.writeByte_wf {m : Memory} (h : m.wf = true) {a : Nat} (ha : a < 2 ^ 64) (v : Byte) :
    (Memory.writeByte m a v).wf = true := by
  unfold Memory.writeByte
  split
  · exact Memory.erase_wf h a
  · rename_i hv
    exact Memory.list_wf (Memory.erase_wf h a) ha hv fun c hc => (Memory.mem_of_mem_erase hc).2

/-- A write of `n` bytes below 2^64 keeps the canonical form. -/
theorem Memory.write_wf {m : Memory} (h : m.wf = true) {a n : Nat} (ha : a + n ≤ 2 ^ 64) {w : Nat} (v : BitVec w) :
    (Memory.write m a v n).wf = true := by
  induction n with
  | zero => exact h
  | succ n ih => exact Memory.writeByte_wf (ih (by omega)) (by omega) _

/-- The memory of `State.reset` has the canonical form. -/
theorem reset_mem_wf : State.reset.mem.wf = true := by decide

/-! ### Address sets -/

theorem AddrSet.mem_insert {l : AddrSet} {a b : Nat} : b ∈ AddrSet.insert l a ↔ b = a ∨ b ∈ l := by
  induction l with
  | nil => simp [AddrSet.insert]
  | cons c rest ih =>
    unfold AddrSet.insert
    split
    · simp
    · split
      · rename_i h; subst h; simp
      · simp only [List.mem_cons, ih]; tauto

theorem AddrSet.mem_insertRange {l : AddrSet} {a n b : Nat} :
    b ∈ AddrSet.insertRange l a n ↔ (a ≤ b ∧ b < a + n) ∨ b ∈ l := by
  induction n with
  | zero => simp only [AddrSet.insertRange]; constructor
            · exact Or.inr
            · rintro (h | h); · omega
              · exact h
  | succ n ih =>
    simp only [AddrSet.insertRange, AddrSet.mem_insert, ih]
    constructor
    · rintro (h | h | h)
      · exact .inl (by omega)
      · exact .inl (by omega)
      · exact .inr h
    · rintro (h | h)
      · by_cases hb : b = a + n
        · exact .inl hb
        · exact .inr (.inl (by omega))
      · exact .inr (.inr h)

theorem AddrSet.mem_eraseRange {l : AddrSet} {a n b : Nat} :
    b ∈ AddrSet.eraseRange l a n ↔ b ∈ l ∧ ¬ (a ≤ b ∧ b < a + n) := by
  simp only [AddrSet.eraseRange, List.mem_filter, Bool.not_eq_true', Bool.and_eq_false_iff, decide_eq_false_iff_not]
  tauto

theorem AddrSet.meets_iff {l : AddrSet} {a n : Nat} : AddrSet.meets l a n = true ↔ ∃ k < n, a + k ∈ l := by
  simp [AddrSet.meets]

theorem AddrSet.wf_iff (l : AddrSet) : l.wf = true ↔ l.Pairwise (· < ·) ∧ ∀ a ∈ l, a < 2 ^ 64 := by
  simp [AddrSet.wf]

theorem AddrSet.insert_wf {l : AddrSet} (h : l.wf = true) {a : Nat} (ha : a < 2 ^ 64) :
    (AddrSet.insert l a).wf = true := by
  rw [AddrSet.wf_iff] at *
  refine ⟨?_, fun b hb => ?_⟩
  · induction l with
    | nil => simp [AddrSet.insert]
    | cons c rest ih =>
      have hp := List.pairwise_cons.mp h.1
      unfold AddrSet.insert
      split
      · rename_i hlt
        refine List.pairwise_cons.mpr ⟨fun b hb => ?_, h.1⟩
        rcases List.mem_cons.mp hb with rfl | hb
        · exact hlt
        · exact Nat.lt_trans hlt (hp.1 b hb)
      · split
        · exact h.1
        · refine List.pairwise_cons.mpr ⟨fun b hb => ?_, ih ⟨hp.2, fun b hb => h.2 b (by simp [hb])⟩⟩
          rcases AddrSet.mem_insert.mp hb with rfl | hb
          · omega
          · exact hp.1 b hb
  · rcases AddrSet.mem_insert.mp hb with rfl | hb
    · exact ha
    · exact h.2 b hb

theorem AddrSet.insertRange_wf {l : AddrSet} (h : l.wf = true) {a n : Nat} (ha : a + n ≤ 2 ^ 64) :
    (AddrSet.insertRange l a n).wf = true := by
  induction n with
  | zero => exact h
  | succ n ih => exact AddrSet.insert_wf (ih (by omega)) (by omega)

theorem AddrSet.eraseRange_wf {l : AddrSet} (h : l.wf = true) (a n : Nat) : (AddrSet.eraseRange l a n).wf = true := by
  rw [AddrSet.wf_iff] at *
  exact ⟨h.1.filter _, fun b hb => h.2 b (AddrSet.mem_eraseRange.mp hb).1⟩

end Sys2Proof.Machine
end

