-- ==== Sys2Proof/Laws/Ops.lean ====
section
/-!
SUPPORT. For each shared operation, once, everything it can do.
-/

namespace Sys2Proof.Machine

/-! ### The memory primitives -/

theorem allValid_iff {p : Config.Platform} {a n : Nat} : allValid p a n = true ↔ ∀ k < n, memValid p (a + k) = true := by
  simp [allValid]

theorem accessible_iff {p : Config.Platform} {a : Word} {n : Nat} :
    accessible p a n = true ↔ a.toNat + n ≤ 2 ^ 64 ∧ ∀ k < n, memValid p (a.toNat + k) = true := by
  simp [accessible, allValid]

theorem memRead_eq_ok {s : State} {a : Word} {n : Nat} {v : BitVec (8 * n)} :
    memRead s a n = .ok v ↔ accessible s.platform a n = true ∧ v = s.mem.read a.toNat n := by
  unfold memRead; split <;> rename_i h <;> simp [h]; exact eq_comm

theorem memRead_eq_error {s : State} {a : Word} {n : Nat} {c : FaultCause} :
    memRead s a n = .error c ↔ accessible s.platform a n = false ∧ c = .loadAccessFault a := by
  unfold memRead; split <;> rename_i h <;> simp [h]; exact eq_comm

theorem memWrite_eq_ok {s t : State} {a : Word} {n : Nat} {v : BitVec (8 * n)} :
    memWrite s a n v = .ok t ↔ accessible s.platform a n = true ∧
      t = { s with mem := s.mem.write a.toNat v n, written := s.written.insertRange a.toNat n } := by
  unfold memWrite; split <;> rename_i h <;> simp [h]; exact eq_comm

theorem memWrite_eq_error {s : State} {a : Word} {n : Nat} {v : BitVec (8 * n)} {c : FaultCause} :
    memWrite s a n v = .error c ↔ accessible s.platform a n = false ∧ c = .storeAccessFault a := by
  unfold memWrite; split <;> rename_i h <;> simp [h]; exact eq_comm

/-- The low two bits of an address are its remainder by 4. -/
theorem misaligned_eq (a : Word) : misaligned a = decide (a.toNat % 4 ≠ 0) := by
  have h : (a.extractLsb' 0 2).toNat = a.toNat % 4 := by simp [BitVec.extractLsb'_toNat]
  unfold misaligned
  by_cases h0 : a.extractLsb' 0 2 = 0b00#2
  · rw [h0] at h; simp [h0]; simpa using h.symm
  · have : a.toNat % 4 ≠ 0 := fun e => h0 (BitVec.eq_of_toNat_eq (by rw [h, e]; rfl))
    simp [h0, this]

theorem fetchWord_eq_ok {s : State} {a : Word} {w : Insn} :
    fetchWord s a = .ok w ↔ misaligned a = false ∧ allValid s.platform a.toNat 4 = true ∧
      AddrSet.meets s.written a.toNat 4 = false ∧ w = s.mem.read a.toNat 4 := by
  unfold fetchWord
  cases misaligned a <;> cases allValid s.platform a.toNat 4 <;> cases AddrSet.meets s.written a.toNat 4 <;>
    simp [eq_comm]

theorem fetchInstr_eq_ok {s : State} {i : Instr} :
    fetchInstr s = .ok i ↔ ∃ w, fetchWord s s.pc = .ok w ∧ decode w = .ok i := by
  unfold fetchInstr
  cases h : fetchWord s s.pc with
  | error c => simp
  | ok w =>
    cases hd : decode w with
    | error e => simp [hd]
    | ok j => simp [hd]

/-! ### The shapes of an instruction -/

theorem retire_eq (rd : Reg) (v : Word) (s : State) : retire rd v s = .next (s.setReg rd v).advance := rfl

/-- A load reads and advances, or raises and changes nothing else. -/
theorem load_eq (rd : Reg) (ea : Word) (n : Nat) (widen : BitVec (8 * n) → Word) (s : State) :
    load rd ea n widen s =
      if accessible s.platform ea n then .next (s.setReg rd (widen (s.mem.read ea.toNat n))).advance
      else .next (raise (.loadAccessFault ea) s) := by
  unfold load memRead; split <;> split <;> simp_all [retire]

/-- A store writes all its bytes and advances, or raises and changes nothing else. -/
theorem store_eq (ea : Word) (n : Nat) (v : BitVec (8 * n)) (s : State) :
    store ea n v s =
      if accessible s.platform ea n then
        .next (State.advance { s with mem := s.mem.write ea.toNat v n, written := s.written.insertRange ea.toNat n })
      else .next (raise (.storeAccessFault ea) s) := by
  unfold store memWrite; split <;> split <;> simp_all

theorem jumpTo_eq (target : Word) (s : State) :
    jumpTo target s =
      if misaligned target then .next (raise (.instructionAddressMisaligned target) s) else .next (s.setPc target) := rfl

/-- A branch not taken advances; a taken one goes to its target or raises. -/
theorem branchIf_eq (taken : Bool) (target : Word) (s : State) :
    branchIf taken target s =
      if taken then
        if misaligned target then .next (raise (.instructionAddressMisaligned target) s) else .next (s.setPc target)
      else .next s.advance := rfl

/-- A jump writes its link and goes to its target, or raises and does neither. -/
theorem jumpAndLink_eq (rd : Reg) (target : Word) (s : State) :
    jumpAndLink rd target s =
      if misaligned target then .next (raise (.instructionAddressMisaligned target) s)
      else .next ((s.setReg rd (s.pc + 4#64)).setPc target) := rfl

/-! ### The step -/

/-- Every way a step can answer a next state. -/
theorem step_cases {s t : State} (h : step s = .next t) :
    s.status = .running ∧
      ((atHalt s = true ∧ t = haltRun s) ∨
       (atHalt s = false ∧ ∃ c, fetchInstr s = .error c ∧ t = raise c s) ∨
       (atHalt s = false ∧ ∃ i, fetchInstr s = .ok i ∧ exec i s = .next t)) := by
  unfold step at h
  split at h
  · cases h
  · cases h
  · rename_i hs
    refine ⟨hs, ?_⟩
    split at h
    · rename_i ha; exact .inl ⟨ha, by cases h; rfl⟩
    · rename_i ha
      have ha : atHalt s = false := by simpa using ha
      split at h
      · rename_i c hf; exact .inr (.inl ⟨ha, c, hf, by cases h; rfl⟩)
      · rename_i i hf; exact .inr (.inr ⟨ha, i, hf, h⟩)

end Sys2Proof.Machine
end

