-- ==== Sys2Proof/Laws/Exec.lean ====
section
/-!
SUPPORT. Everything an instruction can do, and everything a step can do, said once.
-/

namespace Sys2Proof.Machine

/-- The ways an instruction ends: a fault; its destination written; its bytes stored; a taken branch; an untaken one;
a jump with its link. -/
inductive ExecShape (i : Instr) (s : State) : State → Prop where
  | raised (cause : FaultCause) : ExecShape i s (raise cause s)
  | wrote (rd : Reg) (v : Word) : i.destination = some rd → ExecShape i s (s.setReg rd v).advance
  | stored (ea : Word) (n : Nat) (v : BitVec (8 * n)) : i.isStore = true → accessible s.platform ea n = true →
      ExecShape i s
        (State.advance { s with mem := s.mem.write ea.toNat v n, written := s.written.insertRange ea.toNat n })
  | went (target : Word) : misaligned target = false → ExecShape i s (s.setPc target)
  | passed : ExecShape i s s.advance
  | linked (rd : Reg) (target : Word) : i.destination = some rd → misaligned target = false →
      ExecShape i s ((s.setReg rd (s.pc + 4#64)).setPc target)

theorem load_shape {i : Instr} {rd : Reg} (hd : i.destination = some rd) (ea : Word) (n : Nat)
    (widen : BitVec (8 * n) → Word) (s : State) : ∃ t, load rd ea n widen s = .next t ∧ ExecShape i s t := by
  rw [load_eq]
  split
  · exact ⟨_, rfl, .wrote rd _ hd⟩
  · exact ⟨_, rfl, .raised _⟩

theorem store_shape {i : Instr} (hi : i.isStore = true) (ea : Word) (n : Nat) (v : BitVec (8 * n)) (s : State) :
    ∃ t, store ea n v s = .next t ∧ ExecShape i s t := by
  rw [store_eq]
  split
  · rename_i h; exact ⟨_, rfl, .stored ea n v hi h⟩
  · exact ⟨_, rfl, .raised _⟩

theorem branchIf_shape (i : Instr) (taken : Bool) (target : Word) (s : State) :
    ∃ t, branchIf taken target s = .next t ∧ ExecShape i s t := by
  rw [branchIf_eq]
  split
  · split
    · exact ⟨_, rfl, .raised _⟩
    · rename_i h; exact ⟨_, rfl, .went target (by simpa using h)⟩
  · exact ⟨_, rfl, .passed⟩

theorem jumpAndLink_shape {i : Instr} {rd : Reg} (hd : i.destination = some rd) (target : Word) (s : State) :
    ∃ t, jumpAndLink rd target s = .next t ∧ ExecShape i s t := by
  rw [jumpAndLink_eq]
  split
  · exact ⟨_, rfl, .raised _⟩
  · rename_i h; exact ⟨_, rfl, .linked rd target hd (by simpa using h)⟩

/-- Every instruction, from every state, answers a next state of one of the shapes. -/
theorem exec_shape (i : Instr) (s : State) : ∃ t, exec i s = .next t ∧ ExecShape i s t := by
  cases i <;> first
    | exact ⟨_, rfl, .wrote _ _ rfl⟩
    | exact load_shape rfl _ _ _ s
    | exact store_shape rfl _ _ _ s
    | exact branchIf_shape _ _ _ s
    | exact jumpAndLink_shape rfl _ s

theorem exec_cases {i : Instr} {s t : State} (h : exec i s = .next t) : ExecShape i s t := by
  obtain ⟨u, hu, hs⟩ := exec_shape i s
  rw [h] at hu
  cases hu
  exact hs

end Sys2Proof.Machine
end

