-- ==== Sys2Proof/Laws/Operands.lean ====
section
/-!
SUPPORT. What each operand form is, as a number.
-/

namespace Sys2Proof.Machine

/-- A sum with a sign-extended immediate is the sum with its signed value, modulo 2^64 (R25, R53). -/
theorem add_signExtend (a : Word) {w : Nat} (imm : BitVec w) (h : w ≤ 64) :
    a + imm.signExtend 64 = BitVec.ofInt 64 ((a.toNat : Int) + imm.toInt) := by
  apply BitVec.eq_of_toInt_eq
  rw [BitVec.toInt_add, BitVec.toInt_signExtend_of_le h, BitVec.toInt_ofInt, BitVec.toInt_eq_toNat_bmod]
  simp [Int.bmod_add_bmod]

/-- `immU` is the signed field times 4096 (R82). -/
theorem immU_eq (imm20 : BitVec 20) : immU imm20 = BitVec.ofInt 64 (imm20.toInt * 4096) := by
  apply BitVec.eq_of_toInt_eq
  unfold immU
  rw [BitVec.toInt_signExtend_of_le (by decide), BitVec.toInt_ofInt]
  have h : (imm20 ++ 0#12).toInt = imm20.toInt * 4096 := by
    simp only [BitVec.toInt_eq_toNat_cond, BitVec.toNat_append]
    simp
    have := imm20.isLt
    have e : (imm20.toNat : Int) <<< (12 : Nat) = imm20.toNat * 4096 := Int.shiftLeft_eq _ 12
    rw [e]
    split <;> split <;> omega
  rw [h]
  have := BitVec.toInt_lt (x := imm20)
  have := BitVec.le_toInt imm20
  rw [Int.bmod_def]
  omega

/-- Every bit of a sign-extended 12-bit immediate (R78). -/
theorem getLsbD_immI (imm : BitVec 12) {i : Nat} (h : i < 64) :
    (immI imm).getLsbD i = if i < 12 then imm.getLsbD i else imm.getLsbD 11 := by
  unfold immI
  rw [BitVec.getLsbD_signExtend]
  simp [h, BitVec.msb_eq_getLsbD_last]

/-- A register shift takes its amount modulo 64 (R151). -/
theorem shiftAmount_eq (v : Word) : shiftAmount v = v.toNat % 64 := by
  simp [shiftAmount, BitVec.extractLsb'_toNat]

/-- A `jalr` target is its sum with bit 0 cleared (R174). -/
theorem jalrTarget_eq (s : State) (rs1 : Reg) (imm : BitVec 12) :
    jalrTarget s rs1 imm = BitVec.ofNat 64 ((loadAddress s rs1 imm).toNat / 2 * 2) := by
  unfold jalrTarget
  generalize loadAddress s rs1 imm = a
  rw [show 0xFFFFFFFFFFFFFFFE#64 = (BitVec.allOnes 63 ++ 0#1 : BitVec 64) by decide]
  apply BitVec.eq_of_getLsbD_eq
  intro i hi
  rw [BitVec.getLsbD_and, BitVec.getLsbD_append, BitVec.getLsbD_ofNat (x := a.toNat / 2 * 2)]
  rw [show a.toNat / 2 * 2 = (a.toNat / 2) * 2 ^ 1 from rfl, Nat.testBit_mul_two_pow]
  by_cases h : i < 1
  · have : i = 0 := by omega
    subst this
    simp
  · rw [show a.toNat / 2 = a.toNat / 2 ^ 1 from rfl, Nat.testBit_div_two_pow, show i - 1 + 1 = i by omega]
    simp only [h, if_false, hi, BitVec.getLsbD, BitVec.toNat_allOnes, Nat.testBit_two_pow_sub_one]
    simp [show i - 1 < 63 by omega, show 1 ≤ i by omega]

end Sys2Proof.Machine
end

