-- ==== Sys2Proof/Laws/PerInstr.lean ====
section
/-!
SUPPORT. Facts about every instruction as syntax, one lemma per constructor: the word of an instruction is of the
instruction's row of the opcode table.
-/

namespace Sys2Proof

open BitVec

/-! ### The bits a row's mask keeps (R91) -/

theorem encodeR_and_mask (f7 : BitVec 7) (rs2 rs1 : Reg) (f3 : BitVec 3) (rd : Reg) (op : BitVec 7) :
    encodeR f7 rs2 rs1 f3 rd op &&& maskR = encodeR f7 0#5 0#5 f3 0#5 op := by
  rw [show maskR = allOnes 7 ++ 0#5 ++ 0#5 ++ allOnes 3 ++ 0#5 ++ allOnes 7 by decide]
  unfold encodeR
  erw [and_append, and_append, and_append, and_append, and_append]
  simp only [and_allOnes, and_zero]

theorem encodeI_and_mask (imm : BitVec 12) (rs1 : Reg) (f3 : BitVec 3) (rd : Reg) (op : BitVec 7) :
    encodeI imm rs1 f3 rd op &&& maskI = encodeI 0#12 0#5 f3 0#5 op := by
  rw [show maskI = 0#12 ++ 0#5 ++ allOnes 3 ++ 0#5 ++ allOnes 7 by decide]
  unfold encodeI
  erw [and_append, and_append, and_append, and_append]
  simp only [and_allOnes, and_zero]

theorem encodeShift_and_mask (f6 sh : BitVec 6) (rs1 : Reg) (f3 : BitVec 3) (rd : Reg) :
    encodeShift f6 sh rs1 f3 rd &&& maskShift = encodeShift f6 0#6 0#5 f3 0#5 := by
  rw [show maskShift = allOnes 6 ++ 0#6 ++ 0#5 ++ allOnes 3 ++ 0#5 ++ allOnes 7 by decide]
  unfold encodeShift
  erw [and_append, and_append, and_append, and_append, and_append]
  simp only [and_allOnes, and_zero]

theorem encodeU_and_mask (imm20 : BitVec 20) (rd : Reg) (op : BitVec 7) :
    encodeU imm20 rd op &&& maskU = encodeU 0#20 0#5 op := by
  rw [show maskU = 0#20 ++ 0#5 ++ allOnes 7 by decide]
  unfold encodeU
  erw [and_append, and_append]
  simp only [and_allOnes, and_zero]

theorem encodeS_and_mask (imm : BitVec 12) (rs2 rs1 : Reg) (f3 : BitVec 3) :
    encodeS imm rs2 rs1 f3 &&& maskI = encodeS 0#12 0#5 0#5 f3 := by
  rw [show maskI = 0#7 ++ 0#5 ++ 0#5 ++ allOnes 3 ++ 0#5 ++ allOnes 7 by decide]
  unfold encodeS
  erw [and_append, and_append, and_append, and_append, and_append]
  simp only [and_allOnes, and_zero, extractLsb'_zero]

theorem encodeB_and_mask (off : BitVec 13) (rs2 rs1 : Reg) (f3 : BitVec 3) :
    encodeB off rs2 rs1 f3 &&& maskI = encodeB 0#13 0#5 0#5 f3 := by
  rw [show maskI = 0#1 ++ 0#6 ++ 0#5 ++ 0#5 ++ allOnes 3 ++ 0#4 ++ 0#1 ++ allOnes 7 by decide]
  unfold encodeB
  erw [and_append, and_append, and_append, and_append, and_append, and_append, and_append]
  simp only [and_allOnes, and_zero, extractLsb'_zero]

theorem encodeJ_and_mask (off : BitVec 21) (rd : Reg) : encodeJ off rd &&& maskU = encodeJ 0#21 0#5 := by
  rw [show maskU = 0#1 ++ 0#10 ++ 0#1 ++ 0#8 ++ 0#5 ++ allOnes 7 by decide]
  unfold encodeJ
  erw [and_append, and_append, and_append, and_append, and_append]
  simp only [and_allOnes, and_zero, extractLsb'_zero]

/-- The word of the instruction is of the instruction's row (R91). -/
def Laws.RowOfEncode.Statement (i : Instr) : Prop := (opcodeRow i).matches (encode i) = true

theorem Laws.rowOfEncode_of_and {i : Instr} (h : encode i &&& (opcodeRow i).mask = (opcodeRow i).value) :
    Laws.RowOfEncode.Statement i := by
  unfold Laws.RowOfEncode.Statement OpcodeRow.matches
  rw [h]
  exact beq_self_eq_true _

theorem Laws.RowOfEncode.add (rd rs1 rs2 : Reg) : Laws.RowOfEncode.Statement (.add rd rs1 rs2) :=
  Laws.rowOfEncode_of_and ((encodeR_and_mask _ _ _ _ _ _).trans rfl)

theorem Laws.RowOfEncode.sub (rd rs1 rs2 : Reg) : Laws.RowOfEncode.Statement (.sub rd rs1 rs2) :=
  Laws.rowOfEncode_of_and ((encodeR_and_mask _ _ _ _ _ _).trans rfl)

theorem Laws.RowOfEncode.addi (rd rs1 : Reg) (imm : BitVec 12) : Laws.RowOfEncode.Statement (.addi rd rs1 imm) :=
  Laws.rowOfEncode_of_and ((encodeI_and_mask _ _ _ _ _).trans rfl)

theorem Laws.RowOfEncode.auipc (rd : Reg) (imm20 : BitVec 20) : Laws.RowOfEncode.Statement (.auipc rd imm20) :=
  Laws.rowOfEncode_of_and ((encodeU_and_mask _ _ _).trans rfl)

theorem Laws.RowOfEncode.ld (rd rs1 : Reg) (imm : BitVec 12) : Laws.RowOfEncode.Statement (.ld rd rs1 imm) :=
  Laws.rowOfEncode_of_and ((encodeI_and_mask _ _ _ _ _).trans rfl)

theorem Laws.RowOfEncode.sd (rs2 rs1 : Reg) (imm : BitVec 12) : Laws.RowOfEncode.Statement (.sd rs2 rs1 imm) :=
  Laws.rowOfEncode_of_and ((encodeS_and_mask _ _ _ _).trans rfl)

theorem Laws.RowOfEncode.lw (rd rs1 : Reg) (imm : BitVec 12) : Laws.RowOfEncode.Statement (.lw rd rs1 imm) :=
  Laws.rowOfEncode_of_and ((encodeI_and_mask _ _ _ _ _).trans rfl)

theorem Laws.RowOfEncode.lwu (rd rs1 : Reg) (imm : BitVec 12) : Laws.RowOfEncode.Statement (.lwu rd rs1 imm) :=
  Laws.rowOfEncode_of_and ((encodeI_and_mask _ _ _ _ _).trans rfl)

theorem Laws.RowOfEncode.sw (rs2 rs1 : Reg) (imm : BitVec 12) : Laws.RowOfEncode.Statement (.sw rs2 rs1 imm) :=
  Laws.rowOfEncode_of_and ((encodeS_and_mask _ _ _ _).trans rfl)

theorem Laws.RowOfEncode.lh (rd rs1 : Reg) (imm : BitVec 12) : Laws.RowOfEncode.Statement (.lh rd rs1 imm) :=
  Laws.rowOfEncode_of_and ((encodeI_and_mask _ _ _ _ _).trans rfl)

theorem Laws.RowOfEncode.lhu (rd rs1 : Reg) (imm : BitVec 12) : Laws.RowOfEncode.Statement (.lhu rd rs1 imm) :=
  Laws.rowOfEncode_of_and ((encodeI_and_mask _ _ _ _ _).trans rfl)

theorem Laws.RowOfEncode.sh (rs2 rs1 : Reg) (imm : BitVec 12) : Laws.RowOfEncode.Statement (.sh rs2 rs1 imm) :=
  Laws.rowOfEncode_of_and ((encodeS_and_mask _ _ _ _).trans rfl)

theorem Laws.RowOfEncode.lb (rd rs1 : Reg) (imm : BitVec 12) : Laws.RowOfEncode.Statement (.lb rd rs1 imm) :=
  Laws.rowOfEncode_of_and ((encodeI_and_mask _ _ _ _ _).trans rfl)

theorem Laws.RowOfEncode.lbu (rd rs1 : Reg) (imm : BitVec 12) : Laws.RowOfEncode.Statement (.lbu rd rs1 imm) :=
  Laws.rowOfEncode_of_and ((encodeI_and_mask _ _ _ _ _).trans rfl)

theorem Laws.RowOfEncode.sb (rs2 rs1 : Reg) (imm : BitVec 12) : Laws.RowOfEncode.Statement (.sb rs2 rs1 imm) :=
  Laws.rowOfEncode_of_and ((encodeS_and_mask _ _ _ _).trans rfl)

theorem Laws.RowOfEncode.lui (rd : Reg) (imm20 : BitVec 20) : Laws.RowOfEncode.Statement (.lui rd imm20) :=
  Laws.rowOfEncode_of_and ((encodeU_and_mask _ _ _).trans rfl)

theorem Laws.RowOfEncode.and (rd rs1 rs2 : Reg) : Laws.RowOfEncode.Statement (.and rd rs1 rs2) :=
  Laws.rowOfEncode_of_and ((encodeR_and_mask _ _ _ _ _ _).trans rfl)

theorem Laws.RowOfEncode.or (rd rs1 rs2 : Reg) : Laws.RowOfEncode.Statement (.or rd rs1 rs2) :=
  Laws.rowOfEncode_of_and ((encodeR_and_mask _ _ _ _ _ _).trans rfl)

theorem Laws.RowOfEncode.xor (rd rs1 rs2 : Reg) : Laws.RowOfEncode.Statement (.xor rd rs1 rs2) :=
  Laws.rowOfEncode_of_and ((encodeR_and_mask _ _ _ _ _ _).trans rfl)

theorem Laws.RowOfEncode.andi (rd rs1 : Reg) (imm : BitVec 12) : Laws.RowOfEncode.Statement (.andi rd rs1 imm) :=
  Laws.rowOfEncode_of_and ((encodeI_and_mask _ _ _ _ _).trans rfl)

theorem Laws.RowOfEncode.ori (rd rs1 : Reg) (imm : BitVec 12) : Laws.RowOfEncode.Statement (.ori rd rs1 imm) :=
  Laws.rowOfEncode_of_and ((encodeI_and_mask _ _ _ _ _).trans rfl)

theorem Laws.RowOfEncode.xori (rd rs1 : Reg) (imm : BitVec 12) : Laws.RowOfEncode.Statement (.xori rd rs1 imm) :=
  Laws.rowOfEncode_of_and ((encodeI_and_mask _ _ _ _ _).trans rfl)

theorem Laws.RowOfEncode.sll (rd rs1 rs2 : Reg) : Laws.RowOfEncode.Statement (.sll rd rs1 rs2) :=
  Laws.rowOfEncode_of_and ((encodeR_and_mask _ _ _ _ _ _).trans rfl)

theorem Laws.RowOfEncode.srl (rd rs1 rs2 : Reg) : Laws.RowOfEncode.Statement (.srl rd rs1 rs2) :=
  Laws.rowOfEncode_of_and ((encodeR_and_mask _ _ _ _ _ _).trans rfl)

theorem Laws.RowOfEncode.sra (rd rs1 rs2 : Reg) : Laws.RowOfEncode.Statement (.sra rd rs1 rs2) :=
  Laws.rowOfEncode_of_and ((encodeR_and_mask _ _ _ _ _ _).trans rfl)

theorem Laws.RowOfEncode.slli (rd rs1 : Reg) (shamt : BitVec 6) : Laws.RowOfEncode.Statement (.slli rd rs1 shamt) :=
  Laws.rowOfEncode_of_and ((encodeShift_and_mask _ _ _ _ _).trans rfl)

theorem Laws.RowOfEncode.srli (rd rs1 : Reg) (shamt : BitVec 6) : Laws.RowOfEncode.Statement (.srli rd rs1 shamt) :=
  Laws.rowOfEncode_of_and ((encodeShift_and_mask _ _ _ _ _).trans rfl)

theorem Laws.RowOfEncode.srai (rd rs1 : Reg) (shamt : BitVec 6) : Laws.RowOfEncode.Statement (.srai rd rs1 shamt) :=
  Laws.rowOfEncode_of_and ((encodeShift_and_mask _ _ _ _ _).trans rfl)

theorem Laws.RowOfEncode.beq (rs1 rs2 : Reg) (offset : BitVec 13) : Laws.RowOfEncode.Statement (.beq rs1 rs2 offset) :=
  Laws.rowOfEncode_of_and ((encodeB_and_mask _ _ _ _).trans rfl)

theorem Laws.RowOfEncode.bne (rs1 rs2 : Reg) (offset : BitVec 13) : Laws.RowOfEncode.Statement (.bne rs1 rs2 offset) :=
  Laws.rowOfEncode_of_and ((encodeB_and_mask _ _ _ _).trans rfl)

theorem Laws.RowOfEncode.blt (rs1 rs2 : Reg) (offset : BitVec 13) : Laws.RowOfEncode.Statement (.blt rs1 rs2 offset) :=
  Laws.rowOfEncode_of_and ((encodeB_and_mask _ _ _ _).trans rfl)

theorem Laws.RowOfEncode.bge (rs1 rs2 : Reg) (offset : BitVec 13) : Laws.RowOfEncode.Statement (.bge rs1 rs2 offset) :=
  Laws.rowOfEncode_of_and ((encodeB_and_mask _ _ _ _).trans rfl)

theorem Laws.RowOfEncode.bltu (rs1 rs2 : Reg) (offset : BitVec 13) : Laws.RowOfEncode.Statement (.bltu rs1 rs2 offset) :=
  Laws.rowOfEncode_of_and ((encodeB_and_mask _ _ _ _).trans rfl)

theorem Laws.RowOfEncode.bgeu (rs1 rs2 : Reg) (offset : BitVec 13) : Laws.RowOfEncode.Statement (.bgeu rs1 rs2 offset) :=
  Laws.rowOfEncode_of_and ((encodeB_and_mask _ _ _ _).trans rfl)

theorem Laws.RowOfEncode.jal (rd : Reg) (offset : BitVec 21) : Laws.RowOfEncode.Statement (.jal rd offset) :=
  Laws.rowOfEncode_of_and ((encodeJ_and_mask _ _).trans rfl)

theorem Laws.RowOfEncode.jalr (rd rs1 : Reg) (imm : BitVec 12) : Laws.RowOfEncode.Statement (.jalr rd rs1 imm) :=
  Laws.rowOfEncode_of_and ((encodeI_and_mask _ _ _ _ _).trans rfl)

theorem Laws.RowOfEncode.slt (rd rs1 rs2 : Reg) : Laws.RowOfEncode.Statement (.slt rd rs1 rs2) :=
  Laws.rowOfEncode_of_and ((encodeR_and_mask _ _ _ _ _ _).trans rfl)

theorem Laws.RowOfEncode.sltu (rd rs1 rs2 : Reg) : Laws.RowOfEncode.Statement (.sltu rd rs1 rs2) :=
  Laws.rowOfEncode_of_and ((encodeR_and_mask _ _ _ _ _ _).trans rfl)

theorem Laws.RowOfEncode.slti (rd rs1 : Reg) (imm : BitVec 12) : Laws.RowOfEncode.Statement (.slti rd rs1 imm) :=
  Laws.rowOfEncode_of_and ((encodeI_and_mask _ _ _ _ _).trans rfl)

theorem Laws.RowOfEncode.sltiu (rd rs1 : Reg) (imm : BitVec 12) : Laws.RowOfEncode.Statement (.sltiu rd rs1 imm) :=
  Laws.rowOfEncode_of_and ((encodeI_and_mask _ _ _ _ _).trans rfl)

end Sys2Proof
end

