-- ==== Sys2Proof/Tests/Slice0.lean ====
section
/-!
SUPPORT. Small tests: ill-formed terms, decoded words, one step or one instruction at a time, and for every statement of
Obligations.lean with hypotheses a state and operands that meet them. Expected words and results are those of
95_test_vectors.md (Part 1 from the source, Part 2 derived from the rules) or are worked out by hand from the rule named.
-/

namespace Sys2Proof.Tests

open Sys2Proof.Machine Sys2Proof.Claims

/-! ### WellFormed: an odd offset is refused (R80, R81) -/

theorem test_illformed_beq : (Instr.beq 5#5 6#5 2001#13).wellFormed = false := by decide
theorem test_illformed_bne : (Instr.bne 5#5 6#5 2001#13).wellFormed = false := by decide
theorem test_illformed_blt : (Instr.blt 5#5 6#5 2001#13).wellFormed = false := by decide
theorem test_illformed_bge : (Instr.bge 5#5 6#5 2001#13).wellFormed = false := by decide
theorem test_illformed_bltu : (Instr.bltu 5#5 6#5 2001#13).wellFormed = false := by decide
theorem test_illformed_bgeu : (Instr.bgeu 5#5 6#5 2001#13).wellFormed = false := by decide
theorem test_illformed_jal : (Instr.jal 0#5 2001#21).wellFormed = false := by decide
theorem test_wellformed_offset_ends :
    ((Instr.beq 5#5 6#5 0x1000#13).wellFormed && (Instr.beq 5#5 6#5 0xFFE#13).wellFormed &&
      (Instr.jal 1#5 0x100000#21).wellFormed && (Instr.jal 1#5 0xFFFFE#21).wellFormed) = true := by decide

/-! ### Decoding: the words of 95_test_vectors.md 1.4, the fields written out as R72 to R77 print them -/

/-- `0x007302B3`. -/
theorem test_decode_add : decode (0b0000000#7 ++ 0b00111#5 ++ 0b00110#5 ++ 0b000#3 ++ 0b00101#5 ++ 0b0110011#7) = .ok (.add 5#5 6#5 7#5) := by decide
/-- `0x407302B3`. -/
theorem test_decode_sub : decode (0b0100000#7 ++ 0b00111#5 ++ 0b00110#5 ++ 0b000#3 ++ 0b00101#5 ++ 0b0110011#7) = .ok (.sub 5#5 6#5 7#5) := by decide
/-- `0x01430293`. -/
theorem test_decode_addi : decode (0b000000010100#12 ++ 0b00110#5 ++ 0b000#3 ++ 0b00101#5 ++ 0b0010011#7) = .ok (.addi 5#5 6#5 20#12) := by decide
/-- `0x00014297`. -/
theorem test_decode_auipc : decode (0b00000000000000010100#20 ++ 0b00101#5 ++ 0b0010111#7) = .ok (.auipc 5#5 20#20) := by decide
/-- `0x02833283`. -/
theorem test_decode_ld : decode (0b000000101000#12 ++ 0b00110#5 ++ 0b011#3 ++ 0b00101#5 ++ 0b0000011#7) = .ok (.ld 5#5 6#5 40#12) := by decide
/-- `0x02533423`. -/
theorem test_decode_sd : decode (0b0000001#7 ++ 0b00101#5 ++ 0b00110#5 ++ 0b011#3 ++ 0b01000#5 ++ 0b0100011#7) = .ok (.sd 5#5 6#5 40#12) := by decide
/-- `0x02832283`. -/
theorem test_decode_lw : decode (0b000000101000#12 ++ 0b00110#5 ++ 0b010#3 ++ 0b00101#5 ++ 0b0000011#7) = .ok (.lw 5#5 6#5 40#12) := by decide
/-- `0x02836283`. -/
theorem test_decode_lwu : decode (0b000000101000#12 ++ 0b00110#5 ++ 0b110#3 ++ 0b00101#5 ++ 0b0000011#7) = .ok (.lwu 5#5 6#5 40#12) := by decide
/-- `0x02532423`. -/
theorem test_decode_sw : decode (0b0000001#7 ++ 0b00101#5 ++ 0b00110#5 ++ 0b010#3 ++ 0b01000#5 ++ 0b0100011#7) = .ok (.sw 5#5 6#5 40#12) := by decide
/-- `0x02831283`. -/
theorem test_decode_lh : decode (0b000000101000#12 ++ 0b00110#5 ++ 0b001#3 ++ 0b00101#5 ++ 0b0000011#7) = .ok (.lh 5#5 6#5 40#12) := by decide
/-- `0x02835283`. -/
theorem test_decode_lhu : decode (0b000000101000#12 ++ 0b00110#5 ++ 0b101#3 ++ 0b00101#5 ++ 0b0000011#7) = .ok (.lhu 5#5 6#5 40#12) := by decide
/-- `0x02531423`. -/
theorem test_decode_sh : decode (0b0000001#7 ++ 0b00101#5 ++ 0b00110#5 ++ 0b001#3 ++ 0b01000#5 ++ 0b0100011#7) = .ok (.sh 5#5 6#5 40#12) := by decide
/-- `0x02830283`. -/
theorem test_decode_lb : decode (0b000000101000#12 ++ 0b00110#5 ++ 0b000#3 ++ 0b00101#5 ++ 0b0000011#7) = .ok (.lb 5#5 6#5 40#12) := by decide
/-- `0x02834283`. -/
theorem test_decode_lbu : decode (0b000000101000#12 ++ 0b00110#5 ++ 0b100#3 ++ 0b00101#5 ++ 0b0000011#7) = .ok (.lbu 5#5 6#5 40#12) := by decide
/-- `0x02530423`. -/
theorem test_decode_sb : decode (0b0000001#7 ++ 0b00101#5 ++ 0b00110#5 ++ 0b000#3 ++ 0b01000#5 ++ 0b0100011#7) = .ok (.sb 5#5 6#5 40#12) := by decide
/-- `0x123452B7`. -/
theorem test_decode_lui : decode (0b00010010001101000101#20 ++ 0b00101#5 ++ 0b0110111#7) = .ok (.lui 5#5 0x12345#20) := by decide
/-- `0x007372B3`. -/
theorem test_decode_and : decode (0b0000000#7 ++ 0b00111#5 ++ 0b00110#5 ++ 0b111#3 ++ 0b00101#5 ++ 0b0110011#7) = .ok (.and 5#5 6#5 7#5) := by decide
/-- `0x007362B3`. -/
theorem test_decode_or : decode (0b0000000#7 ++ 0b00111#5 ++ 0b00110#5 ++ 0b110#3 ++ 0b00101#5 ++ 0b0110011#7) = .ok (.or 5#5 6#5 7#5) := by decide
/-- `0x007342B3`. -/
theorem test_decode_xor : decode (0b0000000#7 ++ 0b00111#5 ++ 0b00110#5 ++ 0b100#3 ++ 0b00101#5 ++ 0b0110011#7) = .ok (.xor 5#5 6#5 7#5) := by decide
/-- `0x01437293`. -/
theorem test_decode_andi : decode (0b000000010100#12 ++ 0b00110#5 ++ 0b111#3 ++ 0b00101#5 ++ 0b0010011#7) = .ok (.andi 5#5 6#5 20#12) := by decide
/-- `0x01436293`. -/
theorem test_decode_ori : decode (0b000000010100#12 ++ 0b00110#5 ++ 0b110#3 ++ 0b00101#5 ++ 0b0010011#7) = .ok (.ori 5#5 6#5 20#12) := by decide
/-- `0x01434293`. -/
theorem test_decode_xori : decode (0b000000010100#12 ++ 0b00110#5 ++ 0b100#3 ++ 0b00101#5 ++ 0b0010011#7) = .ok (.xori 5#5 6#5 20#12) := by decide
/-- `0x007312B3`. -/
theorem test_decode_sll : decode (0b0000000#7 ++ 0b00111#5 ++ 0b00110#5 ++ 0b001#3 ++ 0b00101#5 ++ 0b0110011#7) = .ok (.sll 5#5 6#5 7#5) := by decide
/-- `0x007352B3`. -/
theorem test_decode_srl : decode (0b0000000#7 ++ 0b00111#5 ++ 0b00110#5 ++ 0b101#3 ++ 0b00101#5 ++ 0b0110011#7) = .ok (.srl 5#5 6#5 7#5) := by decide
/-- `0x407352B3`. -/
theorem test_decode_sra : decode (0b0100000#7 ++ 0b00111#5 ++ 0b00110#5 ++ 0b101#3 ++ 0b00101#5 ++ 0b0110011#7) = .ok (.sra 5#5 6#5 7#5) := by decide
/-- `0x00331293`. -/
theorem test_decode_slli : decode (0b000000#6 ++ 0b000011#6 ++ 0b00110#5 ++ 0b001#3 ++ 0b00101#5 ++ 0b0010011#7) = .ok (.slli 5#5 6#5 3#6) := by decide
/-- `0x00335293`. -/
theorem test_decode_srli : decode (0b000000#6 ++ 0b000011#6 ++ 0b00110#5 ++ 0b101#3 ++ 0b00101#5 ++ 0b0010011#7) = .ok (.srli 5#5 6#5 3#6) := by decide
/-- `0x40335293`. -/
theorem test_decode_srai : decode (0b010000#6 ++ 0b000011#6 ++ 0b00110#5 ++ 0b101#3 ++ 0b00101#5 ++ 0b0010011#7) = .ok (.srai 5#5 6#5 3#6) := by decide
/-- `0x06628263`. -/
theorem test_decode_beq : decode (0b0#1 ++ 0b000011#6 ++ 0b00110#5 ++ 0b00101#5 ++ 0b000#3 ++ 0b0010#4 ++ 0b0#1 ++ 0b1100011#7) = .ok (.beq 5#5 6#5 100#13) := by decide
/-- `0x06629263`. -/
theorem test_decode_bne : decode (0b0#1 ++ 0b000011#6 ++ 0b00110#5 ++ 0b00101#5 ++ 0b001#3 ++ 0b0010#4 ++ 0b0#1 ++ 0b1100011#7) = .ok (.bne 5#5 6#5 100#13) := by decide
/-- `0x0662C263`. -/
theorem test_decode_blt : decode (0b0#1 ++ 0b000011#6 ++ 0b00110#5 ++ 0b00101#5 ++ 0b100#3 ++ 0b0010#4 ++ 0b0#1 ++ 0b1100011#7) = .ok (.blt 5#5 6#5 100#13) := by decide
/-- `0x0662D263`. -/
theorem test_decode_bge : decode (0b0#1 ++ 0b000011#6 ++ 0b00110#5 ++ 0b00101#5 ++ 0b101#3 ++ 0b0010#4 ++ 0b0#1 ++ 0b1100011#7) = .ok (.bge 5#5 6#5 100#13) := by decide
/-- `0x0662E263`. -/
theorem test_decode_bltu : decode (0b0#1 ++ 0b000011#6 ++ 0b00110#5 ++ 0b00101#5 ++ 0b110#3 ++ 0b0010#4 ++ 0b0#1 ++ 0b1100011#7) = .ok (.bltu 5#5 6#5 100#13) := by decide
/-- `0x0662F263`. -/
theorem test_decode_bgeu : decode (0b0#1 ++ 0b000011#6 ++ 0b00110#5 ++ 0b00101#5 ++ 0b111#3 ++ 0b0010#4 ++ 0b0#1 ++ 0b1100011#7) = .ok (.bgeu 5#5 6#5 100#13) := by decide
/-- `0x064000EF`. -/
theorem test_decode_jal : decode (0b0#1 ++ 0b0000110010#10 ++ 0b0#1 ++ 0b00000000#8 ++ 0b00001#5 ++ 0b1101111#7) = .ok (.jal 1#5 100#21) := by decide
/-- `0x064280E7`. -/
theorem test_decode_jalr : decode (0b000001100100#12 ++ 0b00101#5 ++ 0b000#3 ++ 0b00001#5 ++ 0b1100111#7) = .ok (.jalr 1#5 5#5 100#12) := by decide
/-- `0x007322B3`. -/
theorem test_decode_slt : decode (0b0000000#7 ++ 0b00111#5 ++ 0b00110#5 ++ 0b010#3 ++ 0b00101#5 ++ 0b0110011#7) = .ok (.slt 5#5 6#5 7#5) := by decide
/-- `0x007332B3`. -/
theorem test_decode_sltu : decode (0b0000000#7 ++ 0b00111#5 ++ 0b00110#5 ++ 0b011#3 ++ 0b00101#5 ++ 0b0110011#7) = .ok (.sltu 5#5 6#5 7#5) := by decide
/-- `0x01432293`. -/
theorem test_decode_slti : decode (0b000000010100#12 ++ 0b00110#5 ++ 0b010#3 ++ 0b00101#5 ++ 0b0010011#7) = .ok (.slti 5#5 6#5 20#12) := by decide
/-- `0x01433293`. -/
theorem test_decode_sltiu : decode (0b000000010100#12 ++ 0b00110#5 ++ 0b011#3 ++ 0b00101#5 ++ 0b0010011#7) = .ok (.sltiu 5#5 6#5 20#12) := by decide

/-- 95_test_vectors.md 2.8: words of no row (R91, R95), refused by name where R96 has one. -/
theorem test_decode_refused :
    [0x00000000#32, 0xFFFFFFFF#32, 0x00007003#32, 0x00004023#32, 0x20005033#32, 0x00002063#32, 0x00001067#32, 0x04031293#32,
      0x80035293#32, 0x40031293#32, 0x40001033#32].map decode = List.replicate 11 (.error .unassigned) := by decide

theorem test_decode_excluded :
    [0x00000073#32, 0x00100073#32, 0x0000000F#32, 0x0000100F#32, 0x0015051B#32, 0x02A5053B#32, 0x02B50533#32].map decode =
      [.error (.excluded .ecall), .error (.excluded .ebreak), .error (.excluded .fence), .error (.excluded .fenceI),
        .error (.excluded .addiw), .error (.excluded .mulDiv), .error (.excluded .mulDiv)] := by decide

/-- The bytes of a word, lowest address first (R41), and the bytes left over. -/
theorem test_decode_bytes :
    decodeBytes [0x93#8, 0x02#8, 0x00#8, 0x00#8, 0x13#8] = .ok (.addi 5#5 0#5 0#12, [0x13#8]) := by decide

theorem test_decode_truncated : decodeBytes [0x93#8, 0x02#8, 0x00#8] = .error .truncated := by decide

/-! ### Small states -/

/-- All ones: `A` in 95_test_vectors.md. -/
def ones : Word := 0xFFFFFFFFFFFFFFFF#64

/-- The state after reset with the pc at `pc`. -/
def stateAt (pc : Word) : State := State.reset.setPc pc

/-- At pc `0x1000`, with two registers set. -/
def withTwo (r : Reg) (v : Word) (q : Reg) (u : Word) : State := ((stateAt 0x1000#64).setReg r v).setReg q u

/-- At pc `0x1000` with `x6 = 0x1000`, `x5 = 0x1122334455667788` and the eight bytes of 95_test_vectors.md 2.2. -/
def withBytes : State :=
  { withTwo 6#5 0x1000#64 5#5 0x1122334455667788#64 with
    mem := [(0x1028, 0x80#8), (0x1029, 0x81#8), (0x102A, 0x82#8), (0x102B, 0x83#8), (0x102C, 0x84#8), (0x102D, 0x85#8),
      (0x102E, 0x86#8), (0x102F, 0xF7#8)] }

/-- The parameters with memory at `base` to `base + size - 1` only. -/
def onlyMemory (base size : Nat) : Config.Platform := ⟨Config.defaultHaltPc, [⟨base, size⟩]⟩

/-- The instruction answers a next state of which the test holds. -/
def after (i : Instr) (s : State) (test : State → Bool) : Bool :=
  match exec i s with
  | .next t => test t
  | .fault _ | .refused _ => false

/-- The instruction writes `v` to `rd`, goes to `0x1004` and keeps running. -/
def gives (i : Instr) (s : State) (rd : Reg) (v : Word) : Bool :=
  after i s fun t => t.reg rd == v && t.pc == 0x1004#64 && t.status == .running

/-- The instruction raises the fault, with the pc and `x1` as they were. -/
def raises (i : Instr) (s : State) (cause : FaultCause) : Bool :=
  after i s fun t => t.status == .faulted cause s.pc && t.pc == s.pc && t.reg 1#5 == s.reg 1#5 && t.mem == s.mem

/-- The instruction goes to `target`. -/
def goesTo (i : Instr) (s : State) (target : Word) : Bool :=
  after i s fun t => t.pc == target && t.status == .running && t.x == s.x

/-- The eight bytes at `0x1028`, lowest address first. -/
def eightBytes (t : State) : List Byte := (List.range 8).map fun k => t.mem.readByte (0x1028 + k)

/-! ### Instructions (95_test_vectors.md Part 2) -/

theorem test_add_drops_the_carry :
    gives (.add 5#5 6#5 7#5) (withTwo 6#5 0xFFFFFFFFFFFFFFFF#64 7#5 1#64) 5#5 0#64 = true := by decide
theorem test_add_to_x0 :
    gives (.add 0#5 6#5 7#5) (withTwo 6#5 1#64 7#5 2#64) 0#5 0#64 = true := by decide
theorem test_sub_borrows :
    gives (.sub 5#5 6#5 7#5) (withTwo 6#5 3#64 7#5 5#64) 5#5 0xFFFFFFFFFFFFFFFE#64 = true := by decide
theorem test_sub_wraps :
    gives (.sub 5#5 6#5 7#5) (withTwo 6#5 0x8000000000000000#64 7#5 1#64) 5#5 0x7FFFFFFFFFFFFFFF#64 = true := by decide
theorem test_addi_sign_extends :
    gives (.addi 5#5 6#5 0xFFF#12) (withTwo 6#5 0#64 7#5 0#64) 5#5 0xFFFFFFFFFFFFFFFF#64 = true := by decide
theorem test_addi_wraps :
    gives (.addi 5#5 6#5 2047#12) (withTwo 6#5 0xFFFFFFFFFFFFFFFF#64 7#5 0#64) 5#5 0x7FE#64 = true := by decide
theorem test_auipc_reads_its_pc :
    gives (.auipc 5#5 20#20) (withTwo 6#5 0#64 7#5 0#64) 5#5 0x15000#64 = true := by decide
theorem test_auipc_goes_back :
    gives (.auipc 5#5 0xFFFFF#20) (withTwo 6#5 0#64 7#5 0#64) 5#5 0#64 = true := by decide
theorem test_ld_reads :
    gives (.ld 5#5 6#5 40#12) withBytes 5#5 0xF786858483828180#64 = true := by decide
theorem test_lw_reads :
    gives (.lw 5#5 6#5 40#12) withBytes 5#5 0xFFFFFFFF83828180#64 = true := by decide
theorem test_lwu_reads :
    gives (.lwu 5#5 6#5 40#12) withBytes 5#5 0x0000000083828180#64 = true := by decide
theorem test_lh_reads :
    gives (.lh 5#5 6#5 40#12) withBytes 5#5 0xFFFFFFFFFFFF8180#64 = true := by decide
theorem test_lhu_reads :
    gives (.lhu 5#5 6#5 40#12) withBytes 5#5 0x0000000000008180#64 = true := by decide
theorem test_lb_reads :
    gives (.lb 5#5 6#5 40#12) withBytes 5#5 0xFFFFFFFFFFFFFF80#64 = true := by decide
theorem test_lbu_reads :
    gives (.lbu 5#5 6#5 40#12) withBytes 5#5 0x0000000000000080#64 = true := by decide
theorem test_lw_misaligned :
    gives (.lw 5#5 6#5 41#12) withBytes 5#5 0xFFFFFFFF84838281#64 = true := by decide
theorem test_ld_past_the_top :
    raises (.ld 0#5 6#5 0xFF9#12) (withTwo 6#5 0#64 7#5 0#64) (.loadAccessFault 0xFFFFFFFFFFFFFFF9#64) = true := by decide
theorem test_sd_writes :
    (after (.sd 5#5 6#5 40#12) withBytes fun t => eightBytes t == [0x88#8, 0x77#8, 0x66#8, 0x55#8, 0x44#8, 0x33#8, 0x22#8, 0x11#8] &&
      t.written == (List.range 8).map (0x1028 + ·) && t.x == withBytes.x && t.pc == 0x1004#64) = true := by decide
theorem test_sw_writes :
    (after (.sw 5#5 6#5 40#12) withBytes fun t => eightBytes t == [0x88#8, 0x77#8, 0x66#8, 0x55#8, 0x84#8, 0x85#8, 0x86#8, 0xF7#8] &&
      t.written == (List.range 4).map (0x1028 + ·) && t.x == withBytes.x && t.pc == 0x1004#64) = true := by decide
theorem test_sh_writes :
    (after (.sh 5#5 6#5 40#12) withBytes fun t => eightBytes t == [0x88#8, 0x77#8, 0x82#8, 0x83#8, 0x84#8, 0x85#8, 0x86#8, 0xF7#8] &&
      t.written == (List.range 2).map (0x1028 + ·) && t.x == withBytes.x && t.pc == 0x1004#64) = true := by decide
theorem test_sb_writes :
    (after (.sb 5#5 6#5 40#12) withBytes fun t => eightBytes t == [0x88#8, 0x81#8, 0x82#8, 0x83#8, 0x84#8, 0x85#8, 0x86#8, 0xF7#8] &&
      t.written == (List.range 1).map (0x1028 + ·) && t.x == withBytes.x && t.pc == 0x1004#64) = true := by decide
theorem test_sd_past_the_top :
    raises (.sd 5#5 6#5 0xFFC#12) (withTwo 6#5 0#64 5#5 0x11#64) (.storeAccessFault 0xFFFFFFFFFFFFFFFC#64) = true := by decide
theorem test_sb_listed_or_not :
    ((after (.sb 5#5 6#5 0xFFF#12) (withTwo 6#5 0#64 5#5 0xAB#64) fun t => t.mem == [(0xFFFFFFFFFFFFFFFF, 0xAB#8)]) &&
      after (.sb 0#5 6#5 40#12) withBytes fun t => t.mem == withBytes.mem.drop 1) = true := by decide
theorem test_lui_plain :
    gives (.lui 5#5 0x12345#20) (withTwo 6#5 0#64 7#5 0#64) 5#5 0x12345000#64 = true := by decide
theorem test_lui_sign_extends :
    gives (.lui 5#5 0x80000#20) (withTwo 6#5 0#64 7#5 0#64) 5#5 0xFFFFFFFF80000000#64 = true := by decide
theorem test_and_bits :
    gives (.and 5#5 6#5 7#5) (withTwo 6#5 0x00000000FFFF00FF#64 7#5 0x0F0F0F0F0F0F0F0F#64) 5#5 0x000000000F0F000F#64 = true := by decide
theorem test_or_bits :
    gives (.or 5#5 6#5 7#5) (withTwo 6#5 0x00000000FFFF00FF#64 7#5 0x0F0F0F0F0F0F0F0F#64) 5#5 0x0F0F0F0FFFFF0FFF#64 = true := by decide
theorem test_xor_bits :
    gives (.xor 5#5 6#5 7#5) (withTwo 6#5 0x00000000FFFF00FF#64 7#5 0x0F0F0F0F0F0F0F0F#64) 5#5 0x0F0F0F0FF0F00FF0#64 = true := by decide
theorem test_andi_sign_extends :
    gives (.andi 5#5 6#5 0x800#12) (withTwo 6#5 0x00000000FFFF00FF#64 7#5 0x0F0F0F0F0F0F0F0F#64) 5#5 0x00000000FFFF0000#64 = true := by decide
theorem test_ori_sign_extends :
    gives (.ori 5#5 6#5 0x800#12) (withTwo 6#5 0x00000000FFFF00FF#64 7#5 0x0F0F0F0F0F0F0F0F#64) 5#5 0xFFFFFFFFFFFFF8FF#64 = true := by decide
theorem test_xori_sign_extends :
    gives (.xori 5#5 6#5 0x800#12) (withTwo 6#5 0x00000000FFFF00FF#64 7#5 0x0F0F0F0F0F0F0F0F#64) 5#5 0xFFFFFFFF0000F8FF#64 = true := by decide
theorem test_sll_by_65 :
    gives (.sll 5#5 6#5 7#5) (withTwo 6#5 0x8000000000000010#64 7#5 65#64) 5#5 0x20#64 = true := by decide
theorem test_srl_by_65 :
    gives (.srl 5#5 6#5 7#5) (withTwo 6#5 0x8000000000000010#64 7#5 65#64) 5#5 0x4000000000000008#64 = true := by decide
theorem test_sra_by_65 :
    gives (.sra 5#5 6#5 7#5) (withTwo 6#5 0x8000000000000010#64 7#5 65#64) 5#5 0xC000000000000008#64 = true := by decide
theorem test_slli_by_32 :
    gives (.slli 5#5 6#5 32#6) (withTwo 6#5 0x8000000000000010#64 7#5 0#64) 5#5 0x0000001000000000#64 = true := by decide
theorem test_srli_by_32 :
    gives (.srli 5#5 6#5 32#6) (withTwo 6#5 0x8000000000000010#64 7#5 0#64) 5#5 0x0000000080000000#64 = true := by decide
theorem test_srai_by_32 :
    gives (.srai 5#5 6#5 32#6) (withTwo 6#5 0x8000000000000010#64 7#5 0#64) 5#5 0xFFFFFFFF80000000#64 = true := by decide
theorem test_sll_rd_is_rs2 :
    gives (.sll 5#5 6#5 5#5) (withTwo 6#5 1#64 5#5 8#64) 5#5 0x100#64 = true := by decide
theorem test_beq_both_ways :
    (goesTo (.beq 5#5 6#5 100#13) (withTwo 5#5 0xFFFFFFFFFFFFFFFF#64 6#5 1#64) 0x1004#64 &&
      goesTo (.beq 5#5 6#5 100#13) (withTwo 5#5 1#64 6#5 0xFFFFFFFFFFFFFFFF#64) 0x1004#64 &&
      goesTo (.beq 5#5 6#5 100#13) (withTwo 5#5 5#64 6#5 5#64) 0x1064#64 &&
      goesTo (.beq 5#5 6#5 100#13) (withTwo 5#5 0x8000000000000000#64 6#5 0x7FFFFFFFFFFFFFFF#64) 0x1004#64) = true := by decide
theorem test_bne_both_ways :
    (goesTo (.bne 5#5 6#5 100#13) (withTwo 5#5 0xFFFFFFFFFFFFFFFF#64 6#5 1#64) 0x1064#64 &&
      goesTo (.bne 5#5 6#5 100#13) (withTwo 5#5 1#64 6#5 0xFFFFFFFFFFFFFFFF#64) 0x1064#64 &&
      goesTo (.bne 5#5 6#5 100#13) (withTwo 5#5 5#64 6#5 5#64) 0x1004#64 &&
      goesTo (.bne 5#5 6#5 100#13) (withTwo 5#5 0x8000000000000000#64 6#5 0x7FFFFFFFFFFFFFFF#64) 0x1064#64) = true := by decide
theorem test_blt_both_ways :
    (goesTo (.blt 5#5 6#5 100#13) (withTwo 5#5 0xFFFFFFFFFFFFFFFF#64 6#5 1#64) 0x1064#64 &&
      goesTo (.blt 5#5 6#5 100#13) (withTwo 5#5 1#64 6#5 0xFFFFFFFFFFFFFFFF#64) 0x1004#64 &&
      goesTo (.blt 5#5 6#5 100#13) (withTwo 5#5 5#64 6#5 5#64) 0x1004#64 &&
      goesTo (.blt 5#5 6#5 100#13) (withTwo 5#5 0x8000000000000000#64 6#5 0x7FFFFFFFFFFFFFFF#64) 0x1064#64) = true := by decide
theorem test_bge_both_ways :
    (goesTo (.bge 5#5 6#5 100#13) (withTwo 5#5 0xFFFFFFFFFFFFFFFF#64 6#5 1#64) 0x1004#64 &&
      goesTo (.bge 5#5 6#5 100#13) (withTwo 5#5 1#64 6#5 0xFFFFFFFFFFFFFFFF#64) 0x1064#64 &&
      goesTo (.bge 5#5 6#5 100#13) (withTwo 5#5 5#64 6#5 5#64) 0x1064#64 &&
      goesTo (.bge 5#5 6#5 100#13) (withTwo 5#5 0x8000000000000000#64 6#5 0x7FFFFFFFFFFFFFFF#64) 0x1004#64) = true := by decide
theorem test_bltu_both_ways :
    (goesTo (.bltu 5#5 6#5 100#13) (withTwo 5#5 0xFFFFFFFFFFFFFFFF#64 6#5 1#64) 0x1004#64 &&
      goesTo (.bltu 5#5 6#5 100#13) (withTwo 5#5 1#64 6#5 0xFFFFFFFFFFFFFFFF#64) 0x1064#64 &&
      goesTo (.bltu 5#5 6#5 100#13) (withTwo 5#5 5#64 6#5 5#64) 0x1004#64 &&
      goesTo (.bltu 5#5 6#5 100#13) (withTwo 5#5 0x8000000000000000#64 6#5 0x7FFFFFFFFFFFFFFF#64) 0x1004#64) = true := by decide
theorem test_bgeu_both_ways :
    (goesTo (.bgeu 5#5 6#5 100#13) (withTwo 5#5 0xFFFFFFFFFFFFFFFF#64 6#5 1#64) 0x1064#64 &&
      goesTo (.bgeu 5#5 6#5 100#13) (withTwo 5#5 1#64 6#5 0xFFFFFFFFFFFFFFFF#64) 0x1004#64 &&
      goesTo (.bgeu 5#5 6#5 100#13) (withTwo 5#5 5#64 6#5 5#64) 0x1064#64 &&
      goesTo (.bgeu 5#5 6#5 100#13) (withTwo 5#5 0x8000000000000000#64 6#5 0x7FFFFFFFFFFFFFFF#64) 0x1064#64) = true := by decide
theorem test_beq_misaligned :
    (raises (.beq 5#5 6#5 2#13) (withTwo 5#5 7#64 6#5 7#64) (.instructionAddressMisaligned 0x1002#64) &&
      goesTo (.beq 5#5 6#5 2#13) (withTwo 5#5 7#64 6#5 8#64) 0x1004#64) = true := by decide
theorem test_jal_links :
    (after (.jal 1#5 0x1FFFF8#21) (stateAt 0x1000#64) fun t => t.pc == 0xFF8#64 && t.reg 1#5 == 0x1004#64) = true := by decide
theorem test_jal_misaligned :
    raises (.jal 1#5 2#21) (stateAt 0x1000#64) (.instructionAddressMisaligned 0x1002#64) = true := by decide
theorem test_jalr_same_register :
    (after (.jalr 5#5 5#5 8#12) (withTwo 5#5 0x2000#64 6#5 0#64) fun t =>
      t.pc == 0x2008#64 && t.reg 5#5 == 0x1004#64) = true := by decide
theorem test_jalr_clears_bit_0_first :
    (raises (.jalr 1#5 5#5 3#12) (withTwo 5#5 0x2000#64 6#5 0#64) (.instructionAddressMisaligned 0x2002#64) &&
      after (.jalr 1#5 5#5 1#12) (withTwo 5#5 0x2000#64 6#5 0#64) fun t => t.pc == 0x2000#64) = true := by decide
theorem test_slt_reads_its_sign :
    (gives (.slt 5#5 6#5 7#5) (withTwo 6#5 0xFFFFFFFFFFFFFFFF#64 7#5 1#64) 5#5 1#64 &&
      gives (.slt 5#5 6#5 7#5) (withTwo 6#5 1#64 7#5 0xFFFFFFFFFFFFFFFF#64) 5#5 0#64) = true := by decide
theorem test_sltu_reads_its_sign :
    (gives (.sltu 5#5 6#5 7#5) (withTwo 6#5 0xFFFFFFFFFFFFFFFF#64 7#5 1#64) 5#5 0#64 &&
      gives (.sltu 5#5 6#5 7#5) (withTwo 6#5 1#64 7#5 0xFFFFFFFFFFFFFFFF#64) 5#5 1#64) = true := by decide
theorem test_slti_minus_one :
    (gives (.slti 5#5 6#5 0xFFF#12) (withTwo 6#5 0#64 7#5 0#64) 5#5 0#64 &&
      gives (.slti 5#5 6#5 0xFFF#12) (withTwo 6#5 0xFFFFFFFFFFFFFFFF#64 7#5 0#64) 5#5 0#64) = true := by decide
theorem test_sltiu_minus_one :
    (gives (.sltiu 5#5 6#5 0xFFF#12) (withTwo 6#5 0#64 7#5 0#64) 5#5 1#64 &&
      gives (.sltiu 5#5 6#5 0xFFF#12) (withTwo 6#5 0xFFFFFFFFFFFFFFFF#64 7#5 0#64) 5#5 0#64) = true := by decide

/-! ### Steps (95_test_vectors.md 2.8 and Part 3) -/

/-- The step answers a next state of which the test holds. -/
def afterStep (s : State) (test : State → Bool) : Bool :=
  match step s with
  | .next t => test t
  | .fault _ | .refused _ => false

/-- `addi x5, x6, 1` at the last word of the address space: the sequential pc wraps (R25). -/
theorem test_step_wraps_the_pc :
    afterStep (((stateAt 0xFFFFFFFFFFFFFFFC#64).setReg 6#5 1#64).withFetchWord 32 0x00130293)
      (fun t => t.reg 5#5 == 2#64 && t.pc == 0#64 && t.written == []) = true := by decide

theorem test_step_illegal :
    afterStep ((stateAt 0x1000#64).withFetchWord 32 0x7CB51867)
      (fun t => t.status == .faulted (.illegalInstruction 0x7CB51867#32) 0x1000#64 && t.pc == 0x1000#64) = true := by decide

/-- Priority (R209): the access fault comes before `FetchAfterStore`. -/
theorem test_step_fetch_priority :
    (afterStep { stateAt 0x1000#64 with platform := onlyMemory 0 0x1003, written := [0x1003] }
        (fun t => t.status == .faulted (.instructionAccessFault 0x1000#64) 0x1000#64) &&
      afterStep { stateAt 0x1000#64 with written := [0x1002] }
        (fun t => t.status == .faulted (.fetchAfterStore 0x1000#64) 0x1000#64) &&
      afterStep { stateAt 0x1002#64 with written := [0x1002] }
        (fun t => t.status == .faulted (.instructionAddressMisaligned 0x1002#64) 0x1002#64)) = true := by decide

theorem test_step_halts :
    afterStep { stateAt 0x1002#64 with platform := ⟨0x1002#64, []⟩ }
      (fun t => t.status == .halted && t.pc == 0x1002#64) = true := by decide

/-- Bits above `nbits` are zero; no instruction has more than 32 (R70, log 13). -/
theorem test_decodeTableWord :
    decodeTableWord 32 0x007302B3 = some (.add 5#5 6#5 7#5) ∧ decodeTableWord 16 0x007302B3 = some (.add 5#5 0#5 0#5) ∧
      decodeTableWord 40 0x007302B3 = none := by decide

/-! ### Assembler text (R100 to R107) -/

theorem test_assemble_words :
    Asm.assemble 0x1000#64 ["auipc x5, 488", "JALR ra, 1152(t0)", "nop", "lw a0, -3(sp)", "bne x5, x6, -4096", "lui x5, 0x12345"] =
      some [0x001E8297#32, 0x480280E7#32, 0x00000013#32, 0xFFD12503#32, 0x80629063#32, 0x123452B7#32] := by decide

/-- Labels, backward and forward, before the first statement and between (R100, R104). -/
theorem test_assemble_labels :
    Asm.assemble 0x1000#64 ["loop: add x5, x5, x6", "addi x6, x6, -1", "bne x6, x0, loop", "jal x0, L1", "nop", "L1: nop"] =
      some [0x006282B3#32, 0xFFF30313#32, 0xFE031CE3#32, 0x0080006F#32, 0x00000013#32, 0x00000013#32] := by decide

/-- Out of range, odd, of the wrong kind, or unknown: no word (R103, R108). -/
theorem test_assemble_refuses :
    ["addi x5, x6, 2048", "addi x5, x6, -2049", "slli x5, x6, 64", "lui x5, 0x100000", "beq x5, x6, 3", "beq x5, x6, 4096",
      "sll x5, x6, 3", "lw x5, x6, 40", "li x5, 1", "add x5, x6, x32"].map (fun l => Asm.assemble 0#64 [l]) =
      List.replicate 10 none := by decide

/-- A label stands only where a branch or `jal` has its offset, and a register's name is the register (log 8). -/
theorem test_assemble_labels_elsewhere :
    [["L1: addi x5, x6, L1"], ["L1: slli x5, x6, L1"], ["L1: lui x5, L1"], ["L1: lw x5, L1"], ["L1: jal L1, L1"],
      ["t0: jal x0, t0"]].map (Asm.assemble 0#64) = List.replicate 6 none ∧
      Asm.assemble 0#64 ["L1: jal x0, L1", "L2: beq x5, x6, L2"] = some [0x0000006F#32, 0x00628063#32] := by decide

/-- The far-transfer example of the source: 2000000 is 488 and 1152 (R107); a low part of -529 takes one more above. -/
theorem test_far_parts :
    Asm.farHigh 2000000#64 = 488#20 ∧ Asm.farLow 2000000#64 = 1152#12 ∧
      Asm.farHigh 0x89ABCDEF#64 = 0x89ABD#20 ∧ (Asm.farLow 0x89ABCDEF#64).toInt = -529 := by decide

/-! ### Witnesses: a state and operands that meet the hypotheses of each statement, at the ends of its ranges -/

theorem witness_DecodeOfEncode :
    (Instr.add 31#5 0#5 31#5).wellFormed = true ∧ (Instr.bgeu 31#5 0#5 0x1000#13).wellFormed = true ∧
      (Instr.jal 31#5 0xFFFFE#21).wellFormed = true := by decide

theorem witness_EncodeOfDecode :
    decode 0xFE628EE3#32 = .ok (.beq 5#5 6#5 0x1FFC#13) ∧ decode 0xFF9FF0EF#32 = .ok (.jal 1#5 0x1FFFF8#21) := by decide

theorem witness_DecodedIsWellFormed : decode 0x7FFFF0EF#32 = .ok (.jal 1#5 0xFFFFE#21) := by decide

theorem witness_DecodeFollowsOpcodeTable :
    decode 0x407302B3#32 = .ok (.sub 5#5 6#5 7#5) ∧ (⟨"sub", 0xFE00707F#32, 0x40000033#32⟩ : OpcodeRow) ∈ tableRows ∧
      0x407302B3#32 &&& 0xFE00707F#32 = 0x40000033#32 := by decide

/-- `jal x1, 8` loaded at the last word of the address space. -/
def lastWord : State := (stateAt 0xFFFFFFFFFFFFFFFC#64).withFetchWord 32 0x008000EF

theorem witness_StepRunsDecodedInstruction :
    Steps lastWord ∧ lastWord.pc.toNat % 4 = 0 ∧ CodeValid lastWord ∧ CodeUnwritten lastWord ∧
      decode (wordAtPc lastWord) = .ok (.jal 1#5 8#21) := by
  refine ⟨⟨by decide, by decide⟩, by decide, ?_, ?_, by decide⟩ <;> first | (unfold CodeValid; decide) | (unfold CodeUnwritten; decide)

/-- The word of `ecall`, loaded where it is fetched. -/
def ecallLoaded : State := (stateAt 0x1000#64).withFetchWord 32 0x00000073

/-- A refused word where it is fetched, and both ends of the `funct3` values of the CSR instructions. -/
theorem witness_ExcludedWordsAreRefusedByName :
    (Steps ecallLoaded ∧ ecallLoaded.pc.toNat % 4 = 0 ∧ CodeValid ecallLoaded ∧ CodeUnwritten ecallLoaded ∧
      wordAtPc ecallLoaded = 0x00000073#32) ∧
      0b001#3 ∈ [0b001#3, 0b010#3, 0b011#3, 0b101#3, 0b110#3, 0b111#3] ∧
      0b111#3 ∈ [0b001#3, 0b010#3, 0b011#3, 0b101#3, 0b110#3, 0b111#3] := by
  refine ⟨⟨⟨by decide, by decide⟩, by decide, ?_, ?_, by decide⟩, by decide⟩ <;>
    first | (unfold CodeValid; decide) | (unfold CodeUnwritten; decide)

/-- No hypothesis but that the state steps, and one clause of each kind. -/
theorem witness_StepChecksInOrder_misaligned : Steps (stateAt 0x1002#64) ∧ (stateAt 0x1002#64).pc.toNat % 4 ≠ 0 := by
  refine ⟨⟨by decide, by decide⟩, by decide⟩

/-- The last of the four bytes lies just past memory. -/
def pastMemory : State := { stateAt 0x1000#64 with platform := onlyMemory 0 0x1003 }

theorem witness_StepChecksInOrder_invalid : Steps pastMemory ∧ pastMemory.pc.toNat % 4 = 0 ∧ ¬ CodeValid pastMemory := by
  refine ⟨⟨by decide, by decide⟩, by decide, ?_⟩
  unfold CodeValid
  decide

/-- The last of the four bytes was stored by the run. -/
def storedCode : State := { stateAt 0x1000#64 with written := [0x1003] }

theorem witness_StepChecksInOrder_written :
    Steps storedCode ∧ storedCode.pc.toNat % 4 = 0 ∧ CodeValid storedCode ∧ ¬ CodeUnwritten storedCode := by
  refine ⟨⟨by decide, by decide⟩, by decide, ?_, ?_⟩ <;> first | (unfold CodeValid; decide) | (unfold CodeUnwritten; decide)

theorem witness_StepChecksInOrder_illegal :
    Steps (stateAt 0x1000#64) ∧ (stateAt 0x1000#64).pc.toNat % 4 = 0 ∧ CodeValid (stateAt 0x1000#64) ∧
      CodeUnwritten (stateAt 0x1000#64) ∧ ∀ i, decode (wordAtPc (stateAt 0x1000#64)) ≠ .ok i := by
  refine ⟨⟨by decide, by decide⟩, by decide, ?_, ?_, fun i h => ?_⟩
  · unfold CodeValid; decide
  · unfold CodeUnwritten; decide
  · rw [show decode (wordAtPc (stateAt 0x1000#64)) = .error .unassigned by decide] at h; cases h

theorem witness_WordsOfNoRowAreIllegal :
    Steps (stateAt 0x1000#64) ∧ (stateAt 0x1000#64).pc.toNat % 4 = 0 ∧ CodeValid (stateAt 0x1000#64) ∧
      CodeUnwritten (stateAt 0x1000#64) ∧
      ∀ r ∈ tableRows, wordAtPc (stateAt 0x1000#64) &&& r.mask ≠ r.value := by
  refine ⟨⟨by decide, by decide⟩, by decide, ?_, ?_, by decide⟩ <;> first | (unfold CodeValid; decide) | (unfold CodeUnwritten; decide)

/-- The pc has reached `HALT_PC`. -/
def atHaltPc : State := { stateAt 0x2000#64 with platform := ⟨0x2000#64, Config.wholeSpace⟩ }

theorem witness_HaltPcEndsTheRun : atHaltPc.status = .running ∧ atHaltPc.pc = atHaltPc.platform.haltPc := by decide

theorem witness_EndedRunsHaveNoNextStep :
    (haltRun atHaltPc).status = .halted ∧
      (raise (.illegalInstruction 0#32) lastWord).status = .faulted (.illegalInstruction 0#32) lastWord.pc := by decide

theorem witness_ExactlyRunningStatesStep :
    lastWord.status = .running ∧ (∃ t, step lastWord = .next t) ∧ (haltRun atHaltPc).status ≠ .running :=
  ⟨by decide, ⟨_, rfl⟩, by decide⟩

theorem witness_FaultsArePrecise :
    ∃ t, step (stateAt 0x1002#64) = .next t ∧
      t.status = .faulted (.instructionAddressMisaligned 0x1002#64) 0x1002#64 := ⟨_, rfl, by decide⟩

/-- `sd x5, 40(x6)` loaded at pc `0x1000`, with its operands and its eight bytes. -/
def storing : State := withBytes.withFetchWord 32 0x02533423

theorem witness_StepKeepsInv : Safety.Inv storing ∧ ∃ t, step storing = .next t ∧ t.written.length = 8 := by
  refine ⟨⟨by decide, by decide, by decide, by decide, by decide, fun c p h => ?_⟩, _, rfl, by decide⟩
  rw [show storing.status = .running by decide] at h
  cases h

/-- A program of one word at `0x1000`. -/
def oneWord : Launch := { Launch.default with resetPc := 0x1000#64, memInit := [(0x1000, 0x13#8)] }

theorem witness_LaunchMeetsInv : oneWord.resetPc.toNat % 4 = 0 ∧ oneWord.memInit.wf = true := by decide

theorem witness_StepKeepsPlatform : ∃ t, step storing = .next t := ⟨_, rfl⟩

/-- One store changes eight bytes and no other: a byte on each side of its range. -/
theorem witness_UnwrittenBytesKeepTheirValue :
    ∃ t, Safety.Reaches storing t ∧ 0x1028 ∈ t.written ∧ 0x102F ∈ t.written ∧ 0x1027 ∉ t.written ∧ 0x1030 ∉ t.written ∧
      t.mem.readByte 0x1028 ≠ storing.mem.readByte 0x1028 := by
  refine ⟨_, .tail .refl rfl, ?_⟩
  decide

theorem witness_FetchedCodeIsLoadedCode :
    ∃ t, Safety.Reaches (State.launch oneWord) t ∧ fetchWord (State.launch oneWord) (State.launch oneWord).pc = .ok 0x13#32 ∧
      fetchWord t t.pc = .ok 0#32 := by
  refine ⟨_, .tail .refl rfl, ?_⟩
  decide

theorem witness_PlacedWordRunsNext :
    Steps (stateAt 0xFFFFFFFFFFFFFFFC#64) ∧ (stateAt 0xFFFFFFFFFFFFFFFC#64).pc.toNat % 4 = 0 ∧
      CodeValid (stateAt 0xFFFFFFFFFFFFFFFC#64) ∧ decodeTableWord 32 0x008000EF = some (.jal 1#5 8#21) := by
  refine ⟨⟨by decide, by decide⟩, by decide, ?_, by decide⟩
  unfold CodeValid
  decide

theorem witness_OnlyStoresChangeMemory :
    ∃ t, exec (.ld 5#5 6#5 40#12) withBytes = .next t ∧ (Instr.ld 5#5 6#5 40#12).isStore = false := ⟨_, rfl, by decide⟩

theorem witness_OnlyTheDestinationChanges :
    ∃ t, exec (.jal 5#5 8#21) withBytes = .next t ∧ (Instr.jal 5#5 8#21).destination ≠ some 6#5 ∧
      (Instr.sd 5#5 6#5 40#12).destination ≠ some 5#5 := ⟨_, rfl, by decide, by decide⟩

/-- The carry comes or not: the sum at 2^64 and just below it. -/
theorem witness_CarryTestAfterAdd :
    ((5#5 : Reg) ≠ 0#5 ∧ (5#5 : Reg) ≠ 6#5 ∧ (28#5 : Reg) ≠ 0#5) ∧
      (∃ u, exec (.add 5#5 6#5 7#5) (withTwo 6#5 ones 7#5 1#64) = .next u) ∧
      (∃ u, exec (.add 5#5 6#5 7#5) (withTwo 6#5 ones 7#5 0#64) = .next u) := ⟨by decide, ⟨_, rfl⟩, ⟨_, rfl⟩⟩

/-- An access of each width that ends at the last byte of the address space fits; one byte higher it does not. -/
theorem witness_Fits_top :
    (Fits State.reset 0xFFFFFFFFFFFFFFF8#64 8 ∧ ¬ Fits State.reset 0xFFFFFFFFFFFFFFF9#64 8) ∧
      (Fits State.reset 0xFFFFFFFFFFFFFFFC#64 4 ∧ ¬ Fits State.reset 0xFFFFFFFFFFFFFFFD#64 4) ∧
      (Fits State.reset 0xFFFFFFFFFFFFFFFE#64 2 ∧ ¬ Fits State.reset 0xFFFFFFFFFFFFFFFF#64 2) ∧
      Fits State.reset 0xFFFFFFFFFFFFFFFF#64 1 := by
  unfold Fits
  decide

/-- Where memory ends at `0x1003`, an access that touches that byte does not fit, of whatever width. -/
theorem witness_Fits_invalid :
    Fits pastMemory 0xFFB#64 8 ∧ ¬ Fits pastMemory 0xFFC#64 8 ∧ Fits pastMemory 0xFFF#64 4 ∧ ¬ Fits pastMemory 0x1000#64 4 ∧
      Fits pastMemory 0x1001#64 2 ∧ ¬ Fits pastMemory 0x1002#64 2 ∧ Fits pastMemory 0x1002#64 1 ∧
      ¬ Fits pastMemory 0x1003#64 1 := by
  unfold Fits
  decide

/-- The address of a load or store with a negative offset, wrapping: the hypothesis of both clauses. -/
theorem witness_LoadsReadMemory :
    offsetBy (State.reset.reg 6#5) (0xFF8#12 : BitVec 12).toInt = 0xFFFFFFFFFFFFFFF8#64 ∧
      offsetBy (State.reset.reg 6#5) (0xFF9#12 : BitVec 12).toInt = 0xFFFFFFFFFFFFFFF9#64 := by decide

theorem witness_StoresWriteMemory :
    offsetBy (State.reset.reg 6#5) (0b1111111#7 ++ 0b11000#5 : BitVec 12).toInt = 0xFFFFFFFFFFFFFFF8#64 ∧
      offsetBy (State.reset.reg 6#5) (0b1111111#7 ++ 0b11100#5 : BitVec 12).toInt = 0xFFFFFFFFFFFFFFFC#64 ∧
      Among 0xFFFFFFFFFFFFFFF8#64 8 0xFFFFFFFFFFFFFFFF ∧ ¬ Among 0xFFFFFFFFFFFFFFF8#64 8 0xFFFFFFFFFFFFFFF7 := by
  unfold Among
  decide

theorem witness_MixedWidthReads :
    (∃ t, memWrite State.reset 0xFFFFFFFFFFFFFFF8#64 8 0x1122334455667788#64 = .ok t) ∧
      (∃ v, memRead withBytes 0x102C#64 4 = .ok v) ∧
      (∃ t, memWrite State.reset 0xFFFFFFFFFFFFFFFF#64 1 0xAB#8 = .ok t) := ⟨⟨_, rfl⟩, ⟨_, rfl⟩, ⟨_, rfl⟩⟩

/-- A constant whose low part is negative, so that the high part is one more than its bits 31:12. -/
theorem witness_LuiPlacesItsField :
    (31#5 : Reg) ≠ 0#5 ∧ 0xDEF#12 = (0x89ABCDEF#32).extractLsb' 0 12 ∧
      0x89ABD#20 = (0x89ABCDEF#32 - (0xDEF#12).signExtend 32).extractLsb' 12 20 := by decide

/-- Each branch condition met and not met at its edge, and targets of both kinds. -/
theorem witness_BranchesGoOrAdvance :
    (ones = ones ∧ ones ≠ 0#64) ∧ (ones.toInt < (0#64).toInt ∧ ¬ ones.toInt < ones.toInt) ∧
      ((0#64).toInt ≤ (0#64).toInt ∧ ¬ (0#64).toInt ≤ ones.toInt) ∧
      ((0#64).toNat < ones.toNat ∧ ¬ ones.toNat < ones.toNat) ∧
      (ones.toNat ≤ ones.toNat ∧ ¬ ones.toNat ≤ (0#64).toNat) ∧
      (offsetBy 0x1000#64 (0x1000#13 : BitVec 13).toInt).toNat % 4 = 0 ∧
      (offsetBy 0x1000#64 (0xFFE#13 : BitVec 13).toInt).toNat % 4 ≠ 0 := by decide

theorem witness_JalLinksAndJumps :
    (offsetBy 0#64 (0x1FFFF8#21 : BitVec 21).toInt).toNat % 4 = 0 ∧
      (offsetBy 0x1000#64 (0xFFFFE#21 : BitVec 21).toInt).toNat % 4 ≠ 0 := by decide

theorem witness_JalrLinksAndJumps :
    offsetBy 0x2000#64 (1#12 : BitVec 12).toInt = 0x2001#64 ∧ BitVec.ofNat 64 (0x2001 / 2 * 2) = 0x2000#64 ∧
      (0x2000#64).toNat % 4 = 0 ∧ offsetBy ones (2047#12 : BitVec 12).toInt = 0x7FE#64 ∧
      BitVec.ofNat 64 (0x7FE / 2 * 2) = 0x7FE#64 ∧ (0x7FE#64).toNat % 4 ≠ 0 := by decide

/-- A call from `0x1000` to its callee at `0x1064`; the return is run from the callee's first instruction. -/
theorem witness_ReturnFollowsCall :
    ∃ t, exec (.jal 1#5 100#21) (stateAt 0x1000#64) = .next t ∧ (1#5 : Reg) ≠ 0#5 ∧
      (stateAt 0x1000#64).pc.toNat % 4 = 0 ∧ (stateAt 0x1000#64).status = .running ∧ t.status = .running ∧
      t.reg 1#5 = 0x1004#64 := ⟨_, rfl, by decide⟩

/-- Both ends of the range of a far offset, and a target that is a multiple of 4. -/
theorem witness_FarOffsetReachesItsTarget :
    (-(2 ^ 31 : Int) - 2 ^ 11 ≤ (0xFFFFFFFF7FFFF800#64).toInt ∧ (0x7FFFF7FF#64).toInt < 2 ^ 31 - 2 ^ 11) ∧
      ¬ -(2 ^ 31 : Int) - 2 ^ 11 ≤ (0xFFFFFFFF7FFFF7FF#64).toInt ∧ ¬ (0x7FFFF800#64).toInt < 2 ^ 31 - 2 ^ 11 ∧
      ((stateAt 0x1000#64).pc + 2000000#64).toNat % 4 = 0 ∧
      0x7FF#12 = (0x7FFFF7FF#64).extractLsb' 0 12 ∧ 0x7FFFF#20 = (0x7FFFF7FF#64 - (0x7FF#12).signExtend 64).extractLsb' 12 20 ∧
      0x800#12 = (0xFFFFFFFF7FFFF800#64).extractLsb' 0 12 ∧ (0xFFFFFFFF7FFFF800#64).getLsbD 11 = true ∧
      0x80000#20 = (0xFFFFFFFF7FFFF800#64 - (0x800#12).signExtend 64).extractLsb' 12 20 := by decide

theorem witness_FieldsHoldExactlyTheirRange :
    Asm.signedField 12 (-2048) = some 0x800#12 ∧ Asm.signedField 12 2047 = some 0x7FF#12 ∧ Asm.signedField 12 2048 = none ∧
      Asm.unsignedField 6 63 = some 63#6 ∧ Asm.unsignedField 6 64 = none ∧ Asm.unsignedField 6 (-1) = none := by decide

theorem witness_AssembledIsWellFormed :
    Asm.Statement.instr ⟨none, "beq", [.reg 5#5, .reg 6#5, .num (-4096)]⟩ = some (.beq 5#5 6#5 0x1000#13) ∧
      Asm.Statement.instr ⟨none, "beq", [.reg 5#5, .reg 6#5, .num 3]⟩ = none := by decide

end Sys2Proof.Tests
end

section
/-!
The statements about the state (10_state.md R20 to R34). An instruction has six ways to end (`ExecShape`) and a step
three (`step_cases`). For each operation these are built from, its effect on what a statement speaks of is said once:
on the invariant, on memory and `Written`, on the registers.
-/

namespace Sys2Proof

open Machine Claims

/-! ### Runs -/

/-- What every step keeps holds at every state a run comes to. -/
theorem Safety.Reaches.keeps {P : State → Prop} (hstep : ∀ t u, P t → step t = .next u → P u) {s t : State}
    (hs : P s) (h : Safety.Reaches s t) : P t := by
  induction h with
  | refl => exact hs
  | tail _ hu ih => exact hstep _ _ ih hu

/-! ### The alignment of the pc (R26) -/

theorem Machine.misaligned_eq_false_iff {a : Word} : misaligned a = false ↔ a.toNat % 4 = 0 := by
  simp [misaligned_eq]

/-- The sum wraps at 2^64, itself a multiple of 4. -/
theorem Machine.add_four_aligned {a : Word} (h : a.toNat % 4 = 0) : (a + 4#64).toNat % 4 = 0 := by
  rw [BitVec.toNat_add, BitVec.toNat_ofNat]
  omega

/-! ### The invariant under each operation -/

theorem Safety.Inv.setReg {s : State} (h : Safety.Inv s) (r : Reg) (v : Word) : Safety.Inv (s.setReg r v) where
  memory_wf := by simpa using h.memory_wf
  written_wf := by simpa using h.written_wf
  pc_aligned := by simpa using h.pc_aligned
  written_valid := by simpa using h.written_valid
  halted_at_halt := by simpa using h.halted_at_halt
  faulted_at_pc := by simpa using h.faulted_at_pc

/-- Only while running may the pc move: the status of a run that is over speaks of its pc. -/
theorem Safety.Inv.setPc {s : State} (h : Safety.Inv s) (hrun : s.status = .running) {target : Word}
    (ht : target.toNat % 4 = 0) : Safety.Inv (s.setPc target) where
  memory_wf := h.memory_wf
  written_wf := h.written_wf
  pc_aligned := ht
  written_valid := h.written_valid
  halted_at_halt hs := by simp [hrun] at hs
  faulted_at_pc c pc hs := by simp [hrun] at hs

theorem Safety.Inv.advance {s : State} (h : Safety.Inv s) (hrun : s.status = .running) : Safety.Inv s.advance :=
  h.setPc hrun (add_four_aligned h.pc_aligned)

theorem Safety.Inv.raise {s : State} (h : Safety.Inv s) (cause : FaultCause) : Safety.Inv (raise cause s) where
  memory_wf := h.memory_wf
  written_wf := h.written_wf
  pc_aligned := h.pc_aligned
  written_valid := h.written_valid
  halted_at_halt hs := by simp at hs
  faulted_at_pc c pc hs := (RunStatus.faulted.inj hs).2.symm

theorem Safety.Inv.haltRun {s : State} (h : Safety.Inv s) (ha : atHalt s = true) : Safety.Inv (haltRun s) where
  memory_wf := h.memory_wf
  written_wf := h.written_wf
  pc_aligned := h.pc_aligned
  written_valid := h.written_valid
  halted_at_halt _ := by simpa [atHalt] using ha
  faulted_at_pc c pc hs := by simp at hs

/-- A store that raises no fault stays below 2^64 and inside valid memory, so `Written` does too (R46). -/
theorem Safety.Inv.store {s : State} (h : Safety.Inv s) {ea : Word} {n : Nat} (v : BitVec (8 * n))
    (hacc : accessible s.platform ea n = true) :
    Safety.Inv { s with mem := s.mem.write ea.toNat v n, written := s.written.insertRange ea.toNat n } := by
  obtain ⟨hbound, hvalid⟩ := accessible_iff.mp hacc
  refine ⟨Memory.write_wf h.memory_wf hbound v, AddrSet.insertRange_wf h.written_wf hbound, h.pc_aligned,
    fun a ha => ?_, h.halted_at_halt, h.faulted_at_pc⟩
  rcases AddrSet.mem_insertRange.mp ha with hin | hold
  · have := hvalid (a - ea.toNat) (by omega)
    rwa [Nat.add_sub_cancel' hin.1] at this
  · exact h.written_valid a hold

/-- However an instruction of a running state ends, the invariant holds after it. -/
theorem Machine.ExecShape.inv {i : Instr} {s t : State} (h : ExecShape i s t) (hrun : s.status = .running)
    (hi : Safety.Inv s) : Safety.Inv t := by
  cases h with
  | raised cause => exact hi.raise cause
  | wrote rd v => exact (hi.setReg rd v).advance (by simpa using hrun)
  | stored ea n v _ hacc => exact (hi.store v hacc).advance hrun
  | went target ht => exact hi.setPc hrun (misaligned_eq_false_iff.mp ht)
  | passed => exact hi.advance hrun
  | linked rd target _ ht => exact (hi.setReg rd _).setPc (by simpa using hrun) (misaligned_eq_false_iff.mp ht)

/-- Settles O14, by the three ways a step can end and the six of an instruction. -/
theorem stepKeepsInv : Obligations.StepKeepsInv := by
  intro s t hi h
  obtain ⟨hrun, ⟨ha, rfl⟩ | ⟨-, c, -, rfl⟩ | ⟨-, i, -, hexec⟩⟩ := step_cases h
  · exact hi.haltRun ha
  · exact hi.raise c
  · exact (exec_cases hexec).inv hrun hi

/-! ### What an instruction does to memory and to `Written` (R30, R31) -/

theorem Claims.SameMemory.of_eq {s t : State} (hm : t.mem = s.mem) (hw : t.written = s.written) : SameMemory s t :=
  ⟨fun a => by rw [hm], fun a => by rw [hw]⟩

/-- An instruction leaves memory and `Written` as they are, or is a store that wrote its bytes. -/
theorem Machine.ExecShape.memory {i : Instr} {s t : State} (h : ExecShape i s t) :
    SameMemory s t ∨ i.isStore = true ∧ ∃ (ea : Word) (n : Nat) (v : BitVec (8 * n)),
      t.mem = s.mem.write ea.toNat v n ∧ t.written = s.written.insertRange ea.toNat n := by
  cases h with
  | stored ea n v hst _ => exact .inr ⟨hst, ea, n, v, rfl, rfl⟩
  | raised | wrote | went | passed | linked => exact .inl (.of_eq (by simp) (by simp))

/-- Settles O23: the one way to end that writes memory is a store's. -/
theorem onlyStoresChangeMemory : Obligations.OnlyStoresChangeMemory := by
  intro i s t h hst
  rcases (exec_cases h).memory with hsame | ⟨hst', -⟩
  · exact hsame
  · simp [hst] at hst'

/-- What a run keeps of memory: `Written` has only grown, and a byte outside it is as at the start (R31, R55). -/
def KeepsUnwritten (s t : State) : Prop :=
  (∀ a ∈ s.written, a ∈ t.written) ∧ ∀ a, a ∉ t.written → t.mem.readByte a = s.mem.readByte a

theorem KeepsUnwritten.trans {s t u : State} (hst : KeepsUnwritten s t) (htu : KeepsUnwritten t u) :
    KeepsUnwritten s u := by
  obtain ⟨hgrow, hkeep⟩ := hst
  obtain ⟨hgrow', hkeep'⟩ := htu
  exact ⟨fun a ha => hgrow' a (hgrow a ha), fun a ha => (hkeep' a ha).trans (hkeep a fun h => ha (hgrow' a h))⟩

theorem Claims.SameMemory.keepsUnwritten {s t : State} (h : SameMemory s t) : KeepsUnwritten s t := by
  obtain ⟨hbytes, hwritten⟩ := h
  exact ⟨fun a ha => (hwritten a).mpr ha, fun a _ => hbytes a⟩

/-- The bytes a store changes are among the addresses it adds to `Written` (R46). -/
theorem KeepsUnwritten.of_store {s t : State} {ea n : Nat} {v : BitVec (8 * n)} (hm : t.mem = s.mem.write ea v n)
    (hw : t.written = s.written.insertRange ea n) : KeepsUnwritten s t := by
  simp only [KeepsUnwritten, hm, hw, AddrSet.mem_insertRange, Memory.readByte_write]
  exact ⟨fun a ha => .inr ha, fun a ha => if_neg fun hin => ha (.inl hin)⟩

theorem KeepsUnwritten.of_step {s t : State} (h : step s = .next t) : KeepsUnwritten s t := by
  obtain ⟨-, ⟨-, rfl⟩ | ⟨-, c, -, rfl⟩ | ⟨-, i, -, hexec⟩⟩ := step_cases h
  · exact (SameMemory.of_eq rfl rfl).keepsUnwritten
  · exact (SameMemory.of_eq rfl rfl).keepsUnwritten
  · rcases (exec_cases hexec).memory with hsame | ⟨-, ea, n, v, hm, hw⟩
    · exact hsame.keepsUnwritten
    · exact .of_store hm hw

/-- Settles O19, by induction on the run: each step keeps the bytes outside `Written`, and this composes. -/
theorem unwrittenBytesKeepTheirValue : Obligations.UnwrittenBytesKeepTheirValue := by
  intro s t h
  exact h.keeps (P := KeepsUnwritten s) (fun t u ht hu => ht.trans (.of_step hu))
    (SameMemory.of_eq rfl rfl).keepsUnwritten

/-! ### What an instruction does to the registers (R21) -/

/-- A register that is not the destination is as before. -/
theorem Machine.ExecShape.reg_eq {i : Instr} {s t : State} (h : ExecShape i s t) {r : Reg}
    (hr : i.destination ≠ some r) : t.reg r = s.reg r := by
  have hne {rd : Reg} (hd : i.destination = some rd) : r ≠ rd := fun e => hr (e ▸ hd)
  cases h with
  | raised | stored | went | passed => rfl
  | wrote rd v hd => exact State.reg_setReg_other s (hne hd) v
  | linked rd target hd _ => exact State.reg_setReg_other s (hne hd) _

/-- Settles O24: `x0` reads 0 in every state, and only the destination is ever written. -/
theorem onlyTheDestinationChanges : Obligations.OnlyTheDestinationChanges := by
  intro i s t h
  exact ⟨State.reg_zero t, fun r hr => (exec_cases h).reg_eq hr⟩

/-! ### The state after reset (R33, R240) -/

theorem Safety.Inv.launch {l : Launch} (hpc : l.resetPc.toNat % 4 = 0) (hmem : l.memInit.wf = true) :
    Safety.Inv (State.launch l) where
  memory_wf := hmem
  written_wf := rfl
  pc_aligned := hpc
  written_valid a ha := by simp [State.launch] at ha
  halted_at_halt hs := by simp [State.launch] at hs
  faulted_at_pc c pc hs := by simp [State.launch] at hs

/-- Settles O15: `State.reset` is the launch at pc 0 with nothing listed in memory. -/
theorem launchMeetsInv : Obligations.LaunchMeetsInv :=
  ⟨fun _ hpc hmem => .launch hpc hmem, .launch (by decide) reset_mem_wf⟩

/-- `x(k+1)` stands at index `k` of the register file. -/
theorem Machine.State.reg_succ (s : State) (k : Fin 31) : s.reg (BitVec.ofNat 5 (k.val + 1)) = s.x[k] := by
  have hk : (BitVec.ofNat 5 (k.val + 1)).toNat = k.val + 1 := by
    rw [BitVec.toNat_ofNat]; omega
  have hne : BitVec.ofNat 5 (k.val + 1) ≠ 0#5 := fun e => by simp [e] at hk
  simp [State.reg, hne, hk]

/-- Settles O16: a launch holds the host's choices field by field. -/
theorem launchGivesTheResetState : Obligations.LaunchGivesTheResetState := by
  intro l
  exact ⟨State.reg_zero _, State.reg_succ _, rfl, fun _ => rfl, fun _ => List.not_mem_nil, rfl, rfl⟩

/-- Every register of `State.reset` holds `Config.defaultXInit` (log 1), which is what `x0` reads as. -/
theorem Machine.State.reset_reg (r : Reg) : State.reset.reg r = 0#64 := by
  unfold State.reg
  split
  · rfl
  · exact Vector.getElem_replicate _

theorem Machine.memValid_wholeSpace {haltPc : Word} {a : Nat} (ha : a < 2 ^ 64) :
    memValid ⟨haltPc, Config.wholeSpace⟩ a = true := by
  simpa [memValid, Config.wholeSpace] using ha

/-- Settles O17. -/
theorem resetHoldsTheModelsChoices : Obligations.ResetHoldsTheModelsChoices :=
  ⟨State.reset_reg, rfl, fun _ => rfl, rfl, fun _ ha => memValid_wholeSpace ha⟩

/-! ### The register names (R22, R102) -/

/-- Settles O44: each name of the table, looked up. -/
theorem registerNamesResolve : Obligations.RegisterNamesResolve := by
  have numbers : ∀ k : Fin 32,
      Asm.regNamed (String.ofList ('x' :: Nat.toDigits 10 k.val)) = some (BitVec.ofNat 5 k.val) := by decide
  exact ⟨numbers, by decide, by decide, by decide, by decide⟩

end Sys2Proof
end

section
/-!
The statements about memory (20_memory.md R40 to R58). A read is told by its bytes, and so is what it sees of a write
before it; the fetch is told by the checks of R47 on the four bytes at the pc, and the step by what the fetch answers.
-/

namespace Sys2Proof

open Machine Claims

/-! ### Reads, byte by byte (R40, R41, R45) -/

/-- R45: a value is what a read gives exactly when each of its bytes is the one that lies there. -/
theorem Machine.Memory.eq_read_iff {m : Memory} {a n : Nat} {v : BitVec (8 * n)} :
    v = m.read a n ↔ ∀ k < n, v.extractLsb' (8 * k) 8 = m.readByte (a + k) := by
  constructor
  · rintro rfl k hk
    ext j hj
    have hbyte : (8 * k + j) / 8 = k ∧ (8 * k + j) % 8 = j ∧ 8 * k + j < 8 * n := by omega
    simp [← BitVec.getLsbD_eq_getElem, Memory.getLsbD_read, hbyte, hj]
  · intro h
    refine BitVec.eq_of_getLsbD_eq fun i hi => ?_
    have hbit := congrArg (·.getLsbD (i % 8)) (h (i / 8) (by omega))
    simpa [← BitVec.getLsbD_eq_getElem, Memory.getLsbD_read, hi, Nat.mod_lt, Nat.div_add_mod] using hbit

/-- R41: the word of an instruction, as its bytes lie in memory. -/
theorem Machine.Memory.read_four (m : Memory) (a : Nat) :
    m.read a 4 = m.readByte (a + 3) ++ m.readByte (a + 2) ++ m.readByte (a + 1) ++ m.readByte a := by
  have top : (m.read (a + 3) 1 : Byte) = m.readByte (a + 3) := BitVec.zero_width_append 0#0 _
  exact congrArg (fun b : Byte => b ++ m.readByte (a + 2) ++ m.readByte (a + 1) ++ m.readByte a) top

/-! ### Reads after a write (R43, R46) -/

/-- The write stayed below 2^64 (R52), so the address of a byte in its range does not wrap. -/
theorem Machine.toNat_add_of_lt {a : Word} {k n : Nat} (hk : k < n) (ha : a.toNat + n ≤ 2 ^ 64) :
    (a + BitVec.ofNat 64 k).toNat = a.toNat + k := by
  rw [BitVec.toNat_add, BitVec.toNat_ofNat]
  omega

/-- R43: a read inside the range of a write gives the bytes of the value that lie there, at every width. -/
theorem Machine.memRead_memWrite_inside {s t : State} {a : Word} {n k r : Nat} {v : BitVec (8 * n)}
    (h : memWrite s a n v = .ok t) (hr : 0 < r) (hin : k + r ≤ n) :
    memRead t (a + BitVec.ofNat 64 k) r = .ok (v.extractLsb' (8 * k) (8 * r)) := by
  obtain ⟨hacc, rfl⟩ := memWrite_eq_ok.mp h
  obtain ⟨hbound, hvalid⟩ := accessible_iff.mp hacc
  have haddr := toNat_add_of_lt (k := k) (by omega) hbound
  refine memRead_eq_ok.mpr ⟨accessible_iff.mpr ⟨by omega, fun j hj => ?_⟩, Memory.eq_read_iff.mpr fun j hj => ?_⟩
  · rw [haddr, Nat.add_assoc]
    exact hvalid (k + j) (by omega)
  · rw [haddr, Memory.readByte_write, if_pos (by omega)]
    ext b hb
    have hoffset : 8 * (a.toNat + k + j - a.toNat) + b = 8 * k + (8 * j + b) := by omega
    have hbit : 8 * j + b < 8 * r := by omega
    simp [hoffset, hbit]

/-- Settles O32: the three reads of its first clause are reads inside the range of the write; its other two say what one
byte is after a write and in a read. -/
theorem mixedWidthReads : Obligations.MixedWidthReads := by
  refine ⟨fun s t a v h => ⟨fun k hk => ?_, ?_, ?_⟩, fun s t a n v h b => ?_, fun s a n v h => ?_⟩
  · exact memRead_memWrite_inside (n := 8) (r := 1) (v := v) h Nat.one_pos (Nat.succ_le_of_lt hk)
  · simpa using memRead_memWrite_inside (n := 8) (k := 0) (r := 4) (v := v) h (by decide) (by decide)
  · exact memRead_memWrite_inside (n := 8) (k := 4) (r := 4) (v := v) h (by decide) (by decide)
  · obtain ⟨-, rfl⟩ := memWrite_eq_ok.mp h
    exact Memory.readByte_write ..
  · exact Memory.eq_read_iff.mp (memRead_eq_ok.mp h).2

/-! ### The fetch (R47, R209) -/

theorem Claims.codeValid_iff {s : State} : CodeValid s ↔ allValid s.platform s.pc.toNat 4 = true :=
  allValid_iff.symm

theorem Claims.codeUnwritten_iff {s : State} : CodeUnwritten s ↔ s.written.meets s.pc.toNat 4 = false := by
  simp [← Bool.not_eq_true, AddrSet.meets_iff, CodeUnwritten]

theorem Machine.fetchWord_pc_misaligned {s : State} (hpc : s.pc.toNat % 4 ≠ 0) :
    fetchWord s s.pc = .error (.instructionAddressMisaligned s.pc) := by
  simp [fetchWord, misaligned_eq, hpc]

theorem Machine.fetchWord_pc_invalid {s : State} (hpc : s.pc.toNat % 4 = 0) (hv : ¬ CodeValid s) :
    fetchWord s s.pc = .error (.instructionAccessFault s.pc) := by
  simp [fetchWord, misaligned_eq, hpc, codeValid_iff.not.mp hv]

theorem Machine.fetchWord_pc_written {s : State} (hpc : s.pc.toNat % 4 = 0) (hv : CodeValid s)
    (hw : ¬ CodeUnwritten s) : fetchWord s s.pc = .error (.fetchAfterStore s.pc) := by
  simp [fetchWord, misaligned_eq, hpc, codeValid_iff.mp hv, codeUnwritten_iff.not.mp hw]

/-- The fetch gives a word exactly past its three checks, and the word is that of the four bytes (R41). -/
theorem Machine.fetchWord_pc_eq_ok {s : State} {w : Insn} :
    fetchWord s s.pc = .ok w ↔ s.pc.toNat % 4 = 0 ∧ CodeValid s ∧ CodeUnwritten s ∧ w = wordAtPc s := by
  rw [fetchWord_eq_ok, misaligned_eq_false_iff, codeValid_iff, codeUnwritten_iff, Memory.read_four, wordAtPc]

/-! ### The step, by what it fetches (R245) -/

theorem Machine.fetchInstr_eq_error {s : State} {c : FaultCause} :
    fetchInstr s = .error c ↔ fetchWord s s.pc = .error c ∨
      ∃ w, fetchWord s s.pc = .ok w ∧ (∀ i, decode w ≠ .ok i) ∧ c = .illegalInstruction w := by
  unfold fetchInstr
  cases hf : fetchWord s s.pc with
  | error d => simp
  | ok w => cases hd : decode w <;> simp [hd, eq_comm]

theorem Claims.Steps.step_eq_faultedWith {s : State} (h : Steps s) {c : FaultCause} (hf : fetchInstr s = .error c) :
    step s = .next (faultedWith s c) := by
  obtain ⟨hrun, hhalt⟩ := h
  simp [step, hrun, atHalt, hhalt, hf, raise, faultedWith]

theorem Claims.Steps.step_eq_exec {s : State} (h : Steps s) {i : Instr} (hf : fetchInstr s = .ok i) :
    step s = exec i s := by
  obtain ⟨hrun, hhalt⟩ := h
  simp [step, hrun, atHalt, hhalt, hf]

/-- Settles O7: past the checks of the fetch, the word at the pc is fetched and decoded. -/
theorem stepRunsDecodedInstruction : Obligations.StepRunsDecodedInstruction := by
  intro s i hs hpc hv hw hd
  exact hs.step_eq_exec (fetchInstr_eq_ok.mpr ⟨_, fetchWord_pc_eq_ok.mpr ⟨hpc, hv, hw, rfl⟩, hd⟩)

/-- Settles O8: a check of the fetch that fails is the step's fault; past all three the word decides. -/
theorem stepChecksInOrder : Obligations.StepChecksInOrder := by
  intro s hs
  have faults {c : FaultCause} (hf : fetchWord s s.pc = .error c) : step s = .next (faultedWith s c) :=
    hs.step_eq_faultedWith (fetchInstr_eq_error.mpr (.inl hf))
  refine ⟨fun hpc => faults (fetchWord_pc_misaligned hpc), fun hpc hv => faults (fetchWord_pc_invalid hpc hv),
    fun hpc hv hw => faults (fetchWord_pc_written hpc hv hw), fun hpc hv hw => ?_⟩
  have hf : fetchWord s s.pc = .ok (wordAtPc s) := fetchWord_pc_eq_ok.mpr ⟨hpc, hv, hw, rfl⟩
  exact ⟨hf, fun hd => hs.step_eq_faultedWith (fetchInstr_eq_error.mpr (.inr ⟨_, hf, hd, rfl⟩)),
    fun i => stepRunsDecodedInstruction s i hs hpc hv hw⟩

/-! ### Code is what was loaded (R58, R249) -/

/-- Settles O20: a fetched byte is outside `Written`, and the run has kept the bytes outside it. -/
theorem fetchedCodeIsLoadedCode : Obligations.FetchedCodeIsLoadedCode := by
  intro l t w hrun hf
  obtain ⟨-, -, hunwritten, rfl⟩ := fetchWord_pc_eq_ok.mp hf
  obtain ⟨-, hkeep⟩ := unwrittenBytesKeepTheirValue _ t hrun
  calc wordAtPc t
    _ = t.mem.read t.pc.toNat 4 := (Memory.read_four ..).symm
    _ = l.memInit.read t.pc.toNat 4 := Memory.read_congr fun k hk => hkeep _ (hunwritten k hk)
    _ = _ := Memory.read_four ..

end Sys2Proof
end

section
/-!
The statements about encoding and decoding (30_encoding.md R70 to R96). A word is put together again from its fields,
format by format; so the decoder and the encoder are inverse on the instructions some word encodes
(`decode_eq_ok_iff`), and a row of the opcode table tells exactly the fields the decoder looks at.
-/

namespace Sys2Proof

open Machine Claims

/-! ### A word from its fields (R72 to R77) -/

/-- The library's law with the cut named by numbers, which a rewrite of literal positions needs. -/
theorem extractLsb'_append_extractLsb'_adjacent {k : Nat} (w : BitVec k) (lo m n : Nat) :
    w.extractLsb' (lo + m) n ++ w.extractLsb' lo m = w.extractLsb' lo (n + m) :=
  BitVec.extractLsb'_append_extractLsb'_eq_extractLsb' rfl

section

variable {w : Insn} {op f7 : BitVec 7} {f6 : BitVec 6} {f3 : BitVec 3}

/-- R72. -/
theorem encodeR_fields (hop : fieldOpcode w = op) (h3 : fieldFunct3 w = f3) (h7 : fieldFunct7 w = f7) :
    encodeR f7 (fieldRs2 w) (fieldRs1 w) f3 (fieldRd w) op = w := by
  subst hop h3 h7
  unfold encodeR fieldFunct7 fieldRs2 fieldRs1 fieldFunct3 fieldRd fieldOpcode
  rw [extractLsb'_append_extractLsb'_adjacent w 20 5 7, extractLsb'_append_extractLsb'_adjacent w 15 5 12,
    extractLsb'_append_extractLsb'_adjacent w 12 3 17, extractLsb'_append_extractLsb'_adjacent w 7 5 20,
    extractLsb'_append_extractLsb'_adjacent w 0 7 25]
  exact BitVec.extractLsb'_eq_self

/-- R73: the immediate stands where an R-type word has `funct7` and `rs2`. -/
theorem encodeI_fields (hop : fieldOpcode w = op) (h3 : fieldFunct3 w = f3) :
    encodeI (fieldImmI w) (fieldRs1 w) f3 (fieldRd w) op = w := by
  refine Eq.trans ?_ (encodeR_fields hop h3 rfl)
  unfold encodeI fieldImmI encodeR fieldFunct7 fieldRs2
  rw [extractLsb'_append_extractLsb'_adjacent w 20 5 7]

/-- R73: the immediate of an I-type word is here `funct6` and `shamt`. -/
theorem encodeShift_fields (hop : fieldOpcode w = 0b0010011#7) (h3 : fieldFunct3 w = f3) (h6 : fieldFunct6 w = f6) :
    encodeShift f6 (fieldShamt w) (fieldRs1 w) f3 (fieldRd w) = w := by
  subst h6
  refine Eq.trans ?_ (encodeI_fields hop h3)
  unfold encodeShift fieldFunct6 fieldShamt encodeI fieldImmI
  rw [extractLsb'_append_extractLsb'_adjacent w 20 6 6]

/-- R74. -/
theorem encodeU_fields (hop : fieldOpcode w = op) : encodeU (fieldImmU w) (fieldRd w) op = w := by
  subst hop
  unfold encodeU fieldImmU fieldRd fieldOpcode
  rw [extractLsb'_append_extractLsb'_adjacent w 7 5 20, extractLsb'_append_extractLsb'_adjacent w 0 7 25]
  exact BitVec.extractLsb'_eq_self

/-- R75, R79: the two parts of the immediate stand where an R-type word has `funct7` and `rd`. -/
theorem encodeS_fields (hop : fieldOpcode w = 0b0100011#7) (h3 : fieldFunct3 w = f3) :
    encodeS (fieldImmS w) (fieldRs2 w) (fieldRs1 w) f3 = w := by
  have hi : (fieldImmS w).extractLsb' 5 7 = fieldFunct7 w := by
    unfold fieldImmS
    erw [BitVec.extractLsb'_append_eq_of_le (by decide)]
    simp [fieldFunct7]
  have lo : (fieldImmS w).extractLsb' 0 5 = fieldRd w := by
    unfold fieldImmS
    erw [BitVec.extractLsb'_append_eq_of_add_le (by decide)]
    simp [fieldRd]
  unfold encodeS
  rw [hi, lo]
  exact encodeR_fields hop h3 rfl

/-- R76, R80: the parts of the offset are out of order in the word, so it is compared bit by bit. -/
theorem encodeB_fields (hop : fieldOpcode w = 0b1100011#7) (h3 : fieldFunct3 w = f3) :
    encodeB (fieldImmB w) (fieldRs2 w) (fieldRs1 w) f3 = w := by
  subst h3
  unfold encodeB
  rw [← hop]
  refine BitVec.eq_of_getLsbD_eq fun i hi => ?_
  simp only [fieldImmB, fieldRs2, fieldRs1, fieldFunct3, fieldOpcode, BitVec.getLsbD_append, BitVec.getLsbD_extractLsb']
  interval_cases i <;> simp

/-- R77, R81: bit by bit, as the B-type. -/
theorem encodeJ_fields (hop : fieldOpcode w = 0b1101111#7) : encodeJ (fieldImmJ w) (fieldRd w) = w := by
  unfold encodeJ
  rw [← hop]
  refine BitVec.eq_of_getLsbD_eq fun i hi => ?_
  simp only [fieldImmJ, fieldRd, fieldOpcode, BitVec.getLsbD_append, BitVec.getLsbD_extractLsb']
  interval_cases i <;> simp

end

/-! ### Decoded offsets are even (R80, R81) -/

theorem evenOffset_append_zero {n : Nat} (x : BitVec n) : evenOffset (x ++ 0#1) = true := by
  simp [evenOffset, BitVec.getElem_append]

theorem evenOffset_fieldImmB (w : Insn) : evenOffset (fieldImmB w) = true := evenOffset_append_zero _

theorem evenOffset_fieldImmJ (w : Insn) : evenOffset (fieldImmJ w) = true := evenOffset_append_zero _

/-! ### What each group decodes (R84 to R90) -/

/-- The word is the instruction's, and the instruction one that words encode. -/
def Encodes (w : Insn) (i : Instr) : Prop := encode i = w ∧ i.wellFormed = true

section

variable {w : Insn} {i : Instr}

theorem encodes_of_decodeLoad (hop : fieldOpcode w = 0b0000011#7) (h : decodeLoad w = .ok i) : Encodes w i := by
  unfold decodeLoad at h
  split at h <;> cases h
  all_goals exact ⟨encodeI_fields hop ‹_›, rfl⟩

theorem encodes_of_decodeOpImm (hop : fieldOpcode w = 0b0010011#7) (h : decodeOpImm w = .ok i) : Encodes w i := by
  unfold decodeOpImm at h
  split at h
  case h_7 h3 =>
    split at h <;> cases h
    exact ⟨encodeShift_fields hop h3 ‹_›, rfl⟩
  case h_8 h3 =>
    split at h
    · cases h; exact ⟨encodeShift_fields hop h3 ‹_›, rfl⟩
    · split at h <;> cases h
      exact ⟨encodeShift_fields hop h3 ‹_›, rfl⟩
  all_goals cases h
  all_goals exact ⟨encodeI_fields hop ‹_›, rfl⟩

theorem encodes_of_decodeStore (hop : fieldOpcode w = 0b0100011#7) (h : decodeStore w = .ok i) : Encodes w i := by
  unfold decodeStore at h
  split at h <;> cases h
  all_goals exact ⟨encodeS_fields hop ‹_›, rfl⟩

theorem encodes_of_decodeOp (hop : fieldOpcode w = 0b0110011#7) (h : decodeOp w = .ok i) : Encodes w i := by
  unfold decodeOp at h
  split at h
  · split at h <;> cases h
    all_goals exact ⟨encodeR_fields hop ‹_› ‹_›, rfl⟩
  · split at h
    · split at h <;> cases h
      all_goals exact ⟨encodeR_fields hop ‹_› ‹_›, rfl⟩
    · cases h

theorem encodes_of_decodeBranch (hop : fieldOpcode w = 0b1100011#7) (h : decodeBranch w = .ok i) : Encodes w i := by
  unfold decodeBranch at h
  split at h <;> cases h
  all_goals exact ⟨encodeB_fields hop ‹_›, evenOffset_fieldImmB w⟩

theorem encodes_of_decodeJalr (hop : fieldOpcode w = 0b1100111#7) (h : decodeJalr w = .ok i) : Encodes w i := by
  unfold decodeJalr at h
  split at h <;> cases h
  exact ⟨encodeI_fields hop ‹_›, rfl⟩

theorem encodes_of_decode (h : decode w = .ok i) : Encodes w i := by
  unfold decode at h
  split at h <;> rename_i hop
  · exact encodes_of_decodeLoad hop h
  · exact encodes_of_decodeOpImm hop h
  · cases h; exact ⟨encodeU_fields hop, rfl⟩
  · exact encodes_of_decodeStore hop h
  · exact encodes_of_decodeOp hop h
  · cases h; exact ⟨encodeU_fields hop, rfl⟩
  · exact encodes_of_decodeBranch hop h
  · exact encodes_of_decodeJalr hop h
  · cases h; exact ⟨encodeJ_fields hop, evenOffset_fieldImmJ w⟩
  · cases h

end

/-! ### Decoder and encoder are inverse (R72 to R91) -/

/-- Settles O1, group by group of the opcode map: the decoder finds in the word the fields the encoder put there. An odd
offset would come back even; that is where well-formedness is needed. -/
theorem decodeOfEncode : Obligations.DecodeOfEncode := by
  intro i h
  cases i with
  | lb | lh | lw | ld | lbu | lhu | lwu => simp [encode, decode, decodeLoad]
  | addi | slti | sltiu | xori | ori | andi | slli | srli | srai => simp [encode, decode, decodeOpImm]
  | auipc | lui => simp [encode, decode]
  | sb | sh | sw | sd => simp [encode, decode, decodeStore]
  | add | sub | sll | slt | sltu | xor | srl | sra | or | and => simp [encode, decode, decodeOp]
  | beq | bne | blt | bge | bltu | bgeu => simp [encode, decode, decodeBranch, fieldImmB_encodeB _ _ _ _ h]
  | jalr => simp [encode, decode, decodeJalr]
  | jal => simp [encode, decode, fieldImmJ_encodeJ _ _ h]

/-- The decoder answers exactly the instruction whose word it is given. -/
theorem decode_eq_ok_iff {w : Insn} {i : Instr} : decode w = .ok i ↔ Encodes w i := by
  refine ⟨encodes_of_decode, ?_⟩
  rintro ⟨rfl, hwf⟩
  exact decodeOfEncode i hwf

/-- Settles O2. -/
theorem encodeOfDecode : Obligations.EncodeOfDecode := by
  intro w i h
  obtain ⟨hword, -⟩ := decode_eq_ok_iff.mp h
  exact hword

/-- Settles O3. -/
theorem decodedIsWellFormed : Obligations.DecodedIsWellFormed := by
  intro w i h
  obtain ⟨-, hwf⟩ := decode_eq_ok_iff.mp h
  exact hwf

/-! ### The opcode table (R91) -/

/-- Words that agree under a mask agree in every field the mask keeps whole. -/
theorem extractLsb'_eq_of_and_eq {k lo n : Nat} {w v m : BitVec k} (hm : m.extractLsb' lo n = BitVec.allOnes n)
    (h : w &&& m = v &&& m) : w.extractLsb' lo n = v.extractLsb' lo n := by
  simpa [BitVec.extractLsb'_and, hm] using congrArg (BitVec.extractLsb' lo n) h

section

variable {w v : Insn}

theorem fields_eq_of_and_maskR (h : w &&& maskR = v &&& maskR) :
    fieldOpcode w = fieldOpcode v ∧ fieldFunct3 w = fieldFunct3 v ∧ fieldFunct7 w = fieldFunct7 v :=
  ⟨extractLsb'_eq_of_and_eq (by decide) h, extractLsb'_eq_of_and_eq (by decide) h,
    extractLsb'_eq_of_and_eq (by decide) h⟩

theorem fields_eq_of_and_maskI (h : w &&& maskI = v &&& maskI) :
    fieldOpcode w = fieldOpcode v ∧ fieldFunct3 w = fieldFunct3 v :=
  ⟨extractLsb'_eq_of_and_eq (by decide) h, extractLsb'_eq_of_and_eq (by decide) h⟩

theorem fields_eq_of_and_maskShift (h : w &&& maskShift = v &&& maskShift) :
    fieldOpcode w = fieldOpcode v ∧ fieldFunct3 w = fieldFunct3 v ∧ fieldFunct6 w = fieldFunct6 v :=
  ⟨extractLsb'_eq_of_and_eq (by decide) h, extractLsb'_eq_of_and_eq (by decide) h,
    extractLsb'_eq_of_and_eq (by decide) h⟩

theorem fieldOpcode_eq_of_and_maskU (h : w &&& maskU = v &&& maskU) : fieldOpcode w = fieldOpcode v :=
  extractLsb'_eq_of_and_eq (by decide) h

end

open Laws in
/-- The laws of the single instructions, put together. -/
theorem rowOfEncode : ∀ i : Instr, RowOfEncode.Statement i
  | .add .. => RowOfEncode.add .. | .sub .. => RowOfEncode.sub .. | .addi .. => RowOfEncode.addi ..
  | .auipc .. => RowOfEncode.auipc ..
  | .ld .. => RowOfEncode.ld .. | .sd .. => RowOfEncode.sd .. | .lw .. => RowOfEncode.lw ..
  | .lwu .. => RowOfEncode.lwu .. | .sw .. => RowOfEncode.sw .. | .lh .. => RowOfEncode.lh ..
  | .lhu .. => RowOfEncode.lhu .. | .sh .. => RowOfEncode.sh .. | .lb .. => RowOfEncode.lb ..
  | .lbu .. => RowOfEncode.lbu .. | .sb .. => RowOfEncode.sb .. | .lui .. => RowOfEncode.lui ..
  | .and .. => RowOfEncode.and .. | .or .. => RowOfEncode.or .. | .xor .. => RowOfEncode.xor ..
  | .andi .. => RowOfEncode.andi .. | .ori .. => RowOfEncode.ori .. | .xori .. => RowOfEncode.xori ..
  | .sll .. => RowOfEncode.sll .. | .srl .. => RowOfEncode.srl .. | .sra .. => RowOfEncode.sra ..
  | .slli .. => RowOfEncode.slli .. | .srli .. => RowOfEncode.srli .. | .srai .. => RowOfEncode.srai ..
  | .beq .. => RowOfEncode.beq .. | .bne .. => RowOfEncode.bne .. | .blt .. => RowOfEncode.blt ..
  | .bge .. => RowOfEncode.bge .. | .bltu .. => RowOfEncode.bltu .. | .bgeu .. => RowOfEncode.bgeu ..
  | .jal .. => RowOfEncode.jal .. | .jalr .. => RowOfEncode.jalr ..
  | .slt .. => RowOfEncode.slt .. | .sltu .. => RowOfEncode.sltu .. | .slti .. => RowOfEncode.slti ..
  | .sltiu .. => RowOfEncode.sltiu ..

theorem encode_and_mask (i : Instr) : encode i &&& (opcodeRow i).mask = (opcodeRow i).value :=
  eq_of_beq (rowOfEncode i)

/-- A word of an instruction's row decodes to an instruction of that row: it agrees with the instruction's own word in
the fields the row's mask keeps, and the decoder's choice depends on no other. -/
theorem exists_decode_of_opcodeRow {w : Insn} (j : Instr) (h : w &&& (opcodeRow j).mask = (opcodeRow j).value) :
    ∃ i, decode w = .ok i ∧ opcodeRow i = opcodeRow j := by
  have hj : w &&& (opcodeRow j).mask = encode j &&& (opcodeRow j).mask := h.trans (encode_and_mask j).symm
  cases j with
  | lb | lh | lw | ld | lbu | lhu | lwu =>
    obtain ⟨hop, h3⟩ := fields_eq_of_and_maskI hj
    simp [decode, decodeLoad, hop, h3, encode, opcodeRow]
  | addi | slti | sltiu | xori | ori | andi =>
    obtain ⟨hop, h3⟩ := fields_eq_of_and_maskI hj
    simp [decode, decodeOpImm, hop, h3, encode, opcodeRow]
  | slli | srli | srai =>
    obtain ⟨hop, h3, h6⟩ := fields_eq_of_and_maskShift hj
    simp [decode, decodeOpImm, hop, h3, h6, encode, opcodeRow]
  | auipc | lui | jal =>
    have hop := fieldOpcode_eq_of_and_maskU hj
    simp [decode, hop, encode, opcodeRow]
  | sb | sh | sw | sd =>
    obtain ⟨hop, h3⟩ := fields_eq_of_and_maskI hj
    simp [decode, decodeStore, hop, h3, encode, opcodeRow]
  | add | sub | sll | slt | sltu | xor | srl | sra | or | and =>
    obtain ⟨hop, h3, h7⟩ := fields_eq_of_and_maskR hj
    simp [decode, decodeOp, hop, h3, h7, encode, opcodeRow]
  | beq | bne | blt | bge | bltu | bgeu =>
    obtain ⟨hop, h3⟩ := fields_eq_of_and_maskI hj
    simp [decode, decodeBranch, hop, h3, encode, opcodeRow]
  | jalr =>
    obtain ⟨hop, h3⟩ := fields_eq_of_and_maskI hj
    simp [decode, decodeJalr, hop, h3, encode, opcodeRow]

theorem opcodeTable_eq_tableRows : opcodeTable = tableRows := rfl

theorem opcodeRow_mem_tableRows (i : Instr) : opcodeRow i ∈ tableRows := by
  cases i <;> (simp only [opcodeRow]; decide)

/-- The rows of the table are the rows of instructions. -/
theorem exists_opcodeRow_of_mem {r : OpcodeRow} (h : r ∈ tableRows) : ∃ j, opcodeRow j = r := by
  rw [← opcodeTable_eq_tableRows] at h
  obtain ⟨j, -, hj⟩ := List.mem_map.mp h
  exact ⟨j, hj⟩

theorem exists_decode_of_row {w : Insn} {r : OpcodeRow} (hr : r ∈ tableRows) (h : w &&& r.mask = r.value) :
    ∃ i, decode w = .ok i ∧ opcodeRow i = r := by
  obtain ⟨j, rfl⟩ := exists_opcodeRow_of_mem hr
  exact exists_decode_of_opcodeRow j h

/-- Settles O4. Two rows of one word are both the row of the instruction it decodes to. -/
theorem decodeFollowsOpcodeTable : Obligations.DecodeFollowsOpcodeTable := by
  refine ⟨opcodeTable_eq_tableRows, fun w i h => ?_, fun w r => exists_decode_of_row, fun w r q hr hq hwr hwq => ?_⟩
  · obtain ⟨rfl, -⟩ := decode_eq_ok_iff.mp h
    exact ⟨opcodeRow_mem_tableRows i, encode_and_mask i⟩
  · obtain ⟨i, hi, rfl⟩ := exists_decode_of_row hr hwr
    obtain ⟨j, hj, rfl⟩ := exists_decode_of_row hq hwq
    rw [Except.ok.inj (hi.symm.trans hj)]

end Sys2Proof
end

section
/-!
Words refused by name (30_encoding.md R95, R96), and the two fixed words of this chapter: the word of zeros that
`State.reset` fetches, and `nop` (R105).
-/

namespace Sys2Proof

open Machine Claims

/-! ### Refused words (R95, R96) -/

@[simp] theorem Claims.wordR_eq_encodeR (funct7 : BitVec 7) (rs2 rs1 : Reg) (funct3 : BitVec 3) (rd : Reg)
    (opcode : BitVec 7) : wordR funct7 rs2 rs1 funct3 rd opcode = encodeR funct7 rs2 rs1 funct3 rd opcode := rfl

@[simp] theorem Claims.wordI_eq_encodeI (imm : BitVec 12) (rs1 : Reg) (funct3 : BitVec 3) (rd : Reg)
    (opcode : BitVec 7) : wordI imm rs1 funct3 rd opcode = encodeI imm rs1 funct3 rd opcode := rfl

/-- A word that does not decode is illegal wherever it is fetched (R203). -/
theorem Claims.Refused.of_decode {w : Insn} {name : Excluded} (h : decode w = .error (.excluded name)) :
    Refused w name := by
  refine ⟨h, fun s hs hpc hv hw hword => ?_⟩
  subst hword
  obtain ⟨-, -, -, hfetched⟩ := stepChecksInOrder s hs
  obtain ⟨-, hillegal, -⟩ := hfetched hpc hv hw
  exact hillegal fun i hi => by simp [h] at hi

/-- A word of an opcode that no group has is refused under the name R96 gives it. -/
theorem Claims.Refused.of_rejectName {w : Insn} {name : Excluded}
    (hop : fieldOpcode w ∈ [0b0011011#7, 0b0111011#7, 0b0001111#7, 0b1110011#7])
    (h : rejectName w = .excluded name) : Refused w name := by
  refine .of_decode ?_
  rw [← h]
  simp only [List.mem_cons, List.not_mem_nil, or_false] at hop
  rcases hop with hop | hop | hop | hop <;> simp [decode, hop]

/-- The fields in which a CSR access differs from `ecall` and `ebreak`: both have `funct3 = 0b000`. -/
theorem rejectName_csr {w : Insn} (hop : fieldOpcode w = 0b1110011#7)
    (h3 : fieldFunct3 w ∈ [0b001#3, 0b010#3, 0b011#3, 0b101#3, 0b110#3, 0b111#3]) :
    rejectName w = .excluded .csr := by
  have hecall : w ≠ 0x00000073#32 := by rintro rfl; revert h3; decide
  have hebreak : w ≠ 0x00100073#32 := by rintro rfl; revert h3; decide
  have hfunct3 : ¬ (fieldFunct3 w = 0b000#3 ∨ fieldFunct3 w = 0b100#3) := by
    rintro (h | h) <;> (rw [h] at h3; revert h3; decide)
  simp [rejectName, hop, hecall, hebreak, hfunct3]

/-- Settles O6, row by row of R96: the fields the row fixes are those `rejectName` looks at. -/
theorem excludedWordsAreRefusedByName : Obligations.ExcludedWordsAreRefusedByName := by
  intro imm rs1 rs2 rd funct3
  refine ⟨?addiw, ?slliw, ?srliw, ?sraiw, ?addw, ?subw, ?sllw, ?srlw, ?sraw, ?fence, ?fenceI, ?ecall, ?ebreak,
    fun hcsr => ?csr, ?mulDiv, ?mulDivW⟩
  case addiw | slliw | srliw | sraiw | addw | subw | sllw | srlw | sraw | fence | fenceI | mulDivW =>
    exact .of_rejectName (by simp) (by simp [rejectName])
  case ecall | ebreak => exact .of_decode (by decide)
  case csr => exact .of_rejectName (by simp) (rejectName_csr (by simp) (by simpa using hcsr))
  case mulDiv => exact .of_decode (by simp [decode, decodeOp, rejectName])

/-! ### Nothing placed (R95) -/

/-- Settles O22: `State.reset` fetches the word of zeros, which matches no row. -/
theorem resetWithoutProgramIsIllegal : Obligations.ResetWithoutProgramIsIllegal := by
  have hsteps : Steps State.reset := ⟨rfl, by decide⟩
  have hfetch : fetchWord State.reset State.reset.pc = .ok 0#32 := rfl
  have hdecode : decode 0#32 = .error .unassigned := by decide
  exact hsteps.step_eq_faultedWith (fetchInstr_eq_error.mpr (.inr ⟨0#32, hfetch, by simp [hdecode], rfl⟩))

/-! ### `nop` (R105) -/

theorem Machine.exec_addi (rd rs1 : Reg) (imm : BitVec 12) (s : State) :
    exec (.addi rd rs1 imm) s = .next (s.setReg rd (s.reg rs1 + immI imm)).advance := rfl

/-- Settles O43: a write to `x0` is dropped, so only the pc is left to change. -/
theorem nopChangesOnlyThePc : Obligations.NopChangesOnlyThePc := by
  refine ⟨by decide, by decide, fun s => ?_⟩
  rw [exec_addi, State.setReg_zero]
  rfl

end Sys2Proof
end

section
/-!
The statements about the assembler text (30_encoding.md R103 to R107): the range of a field, the even offsets, and far
offsets. The high part of a far offset is the multiple of 4096 nearest to it, and the low part is what that leaves.
-/

namespace Sys2Proof

open Machine Claims

/-! ### Fields (R103) -/

theorem Machine.Asm.signedField_eq_some_iff {w : Nat} (hw : 0 < w) {n : Int} {v : BitVec w} :
    Asm.signedField w n = some v ↔ v.toInt = n := by
  unfold Asm.signedField
  constructor
  · intro h
    split at h
    · rename_i hrange
      cases h
      exact BitVec.toInt_ofInt_eq_self hw hrange.1 hrange.2
    · cases h
  · rintro rfl
    rw [if_pos ⟨BitVec.le_toInt v, BitVec.toInt_lt⟩, BitVec.ofInt_toInt]

theorem Machine.Asm.unsignedField_eq_some_iff {w : Nat} {n : Int} {v : BitVec w} :
    Asm.unsignedField w n = some v ↔ (v.toNat : Int) = n := by
  unfold Asm.unsignedField
  constructor
  · intro h
    split at h
    · rename_i hrange
      obtain ⟨hle, hlt⟩ := hrange
      cases h
      rw [BitVec.toNat_ofInt, Nat.cast_pow, Nat.cast_ofNat, Int.emod_eq_of_lt hle hlt, Int.toNat_of_nonneg hle]
    · cases h
  · rintro rfl
    rw [if_pos ⟨Int.natCast_nonneg _, by exact_mod_cast v.isLt⟩, BitVec.ofInt_natCast, BitVec.ofNat_toNat,
      BitVec.setWidth_eq]

/-- Settles O45. -/
theorem fieldsHoldExactlyTheirRange : Obligations.FieldsHoldExactlyTheirRange :=
  ⟨fun _ _ _ hw => Asm.signedField_eq_some_iff hw, fun _ _ _ => Asm.unsignedField_eq_some_iff⟩

/-! ### Assembled instructions (R101, R104) -/

/-- A pattern reads as an even number only if its bit 0 is clear: in two's complement the sign stands for a multiple
of 2. -/
theorem evenOffset_of_toInt_even {w : Nat} (hw : 0 < w) {v : BitVec w} (h : v.toInt % 2 = 0) :
    evenOffset v = true := by
  obtain ⟨k, hk⟩ : 2 ∣ 2 ^ w := dvd_pow_self 2 hw.ne'
  rw [BitVec.toInt_eq_toNat_cond, hk] at h
  have heven : v.toNat % 2 = 0 := by omega
  simp [evenOffset, BitVec.getLsbD, heven]

/-- R104. -/
theorem Machine.Asm.evenOffset_of_offsetField {w : Nat} (hw : 0 < w) {n : Int} {v : BitVec w}
    (h : Asm.offsetField w n = some v) : evenOffset v = true := by
  unfold Asm.offsetField at h
  split at h
  · rename_i heven
    obtain rfl := (Asm.signedField_eq_some_iff hw).mp h
    exact evenOffset_of_toInt_even hw heven
  · cases h

/-- Whatever operands a form takes, it makes an instruction some word encodes, the offset of a branch or jump being
even. -/
def Machine.Asm.Form.MakesWellFormed : Asm.Form → Prop
  | .register make => ∀ rd rs1 rs2, (make rd rs1 rs2).wellFormed = true
  | .immediate make => ∀ rd rs1 imm, (make rd rs1 imm).wellFormed = true
  | .shift make => ∀ rd rs1 shamt, (make rd rs1 shamt).wellFormed = true
  | .based make => ∀ r rs1 imm, (make r rs1 imm).wellFormed = true
  | .branch make => ∀ rs1 rs2 offset, evenOffset offset = true → (make rs1 rs2 offset).wellFormed = true
  | .jump make => ∀ rd offset, evenOffset offset = true → (make rd offset).wellFormed = true
  | .upper make => ∀ rd imm20, (make rd imm20).wellFormed = true
  | .fixed i => i.wellFormed = true

theorem Machine.Asm.mnemonicForms_makesWellFormed : ∀ entry ∈ Asm.mnemonicForms, entry.2.MakesWellFormed := by
  simp [mnemonicForms, Form.MakesWellFormed, Instr.wellFormed]

theorem Machine.Asm.Form.MakesWellFormed.build {form : Asm.Form} (hform : form.MakesWellFormed)
    {ops : List Asm.Operand} {i : Instr} (h : form.build ops = some i) : i.wellFormed = true := by
  unfold Form.build at h
  split at h
  · cases h; exact hform ..
  · obtain ⟨imm, -, rfl⟩ := Option.map_eq_some_iff.mp h
    exact hform ..
  · obtain ⟨shamt, -, rfl⟩ := Option.map_eq_some_iff.mp h
    exact hform ..
  · obtain ⟨imm, -, rfl⟩ := Option.map_eq_some_iff.mp h
    exact hform ..
  · obtain ⟨offset, hoffset, rfl⟩ := Option.map_eq_some_iff.mp h
    exact hform _ _ _ (evenOffset_of_offsetField (by decide) hoffset)
  · obtain ⟨offset, hoffset, rfl⟩ := Option.map_eq_some_iff.mp h
    exact hform _ _ (evenOffset_of_offsetField (by decide) hoffset)
  · obtain ⟨imm20, -, rfl⟩ := Option.map_eq_some_iff.mp h
    exact hform ..
  · cases h; exact hform
  · cases h

/-- Settles O46: every mnemonic's form makes well-formed instructions only. -/
theorem assembledIsWellFormed : Obligations.AssembledIsWellFormed := by
  intro st i h
  unfold Asm.Statement.instr at h
  split at h
  · rename_i form hlookup
    obtain ⟨before, after, hforms, -⟩ := List.lookup_eq_some_iff.mp hlookup
    have hmem : (st.mnemonic, form) ∈ Asm.mnemonicForms := by simp [hforms]
    exact (Asm.mnemonicForms_makesWellFormed _ hmem).build h
  · cases h

/-! ### Far offsets (R107) -/

/-- What the low part leaves is the multiple of 4096 nearest to the offset, the higher of two. -/
theorem Machine.Asm.toNat_sub_farLow (d : Word) :
    (d - (Asm.farLow d).signExtend 64).toNat = (d.toNat + 2048) / 4096 * 4096 % 2 ^ 64 := by
  have hlow : (Asm.farLow d).toNat = d.toNat % 4096 := by simp [Asm.farLow]
  have hd := d.isLt
  rw [BitVec.toNat_sub, BitVec.toNat_signExtend, BitVec.msb_eq_decide, BitVec.toNat_setWidth, hlow]
  split <;> rename_i hsign <;> rw [decide_eq_true_iff] at hsign <;> omega

theorem Machine.Asm.toNat_farHigh (d : Word) : (Asm.farHigh d).toNat = (d.toNat + 2048) / 4096 % 2 ^ 20 := by
  unfold Asm.farHigh
  rw [BitVec.extractLsb'_toNat, Asm.toNat_sub_farLow, Nat.shiftRight_eq_div_pow]
  omega

/-- The two parts of an offset in range make the offset up again: what the low part leaves is a multiple of 4096 that
the upper field holds (R82). -/
theorem Machine.Asm.immU_farHigh_add_farLow {d : Word} (hlo : -(2 ^ 31 : Int) - 2 ^ 11 ≤ d.toInt)
    (hhi : d.toInt < 2 ^ 31 - 2 ^ 11) : immU (Asm.farHigh d) + (Asm.farLow d).signExtend 64 = d := by
  suffices immU (Asm.farHigh d) = d - (Asm.farLow d).signExtend 64 by rw [this, BitVec.sub_add_cancel]
  apply BitVec.eq_of_toInt_eq
  rw [immU_eq, BitVec.toInt_ofInt, BitVec.toInt_eq_toNat_cond (Asm.farHigh d),
    BitVec.toInt_eq_toNat_cond (d - _), Asm.toNat_farHigh, Asm.toNat_sub_farLow]
  rw [BitVec.toInt_eq_toNat_cond] at hlo hhi
  have := d.isLt
  rw [Int.bmod_def]
  omega

theorem Machine.Asm.farHigh_of_bit_11 {d : Word} (h : d.getLsbD 11 = true) :
    Asm.farHigh d = d.extractLsb' 12 20 + 1#20 := by
  rw [BitVec.getLsbD, Nat.testBit_eq_decide_div_mod_eq, decide_eq_true_iff] at h
  apply BitVec.eq_of_toNat_eq
  rw [Asm.toNat_farHigh, BitVec.toNat_add, BitVec.extractLsb'_toNat, Nat.shiftRight_eq_div_pow, BitVec.toNat_ofNat]
  omega

theorem Machine.exec_auipc (rd : Reg) (imm20 : BitVec 20) (s : State) :
    exec (.auipc rd imm20) s = .next (s.setReg rd (s.pc + immU imm20)).advance := rfl

theorem Machine.exec_jalr (rd rs1 : Reg) (imm : BitVec 12) (s : State) :
    exec (.jalr rd rs1 imm) s = jumpAndLink rd (jalrTarget s rs1 imm) s := rfl

/-- A `jalr` to a sum that is a multiple of 4 goes there: its bit 0 is clear already (R174). -/
theorem Machine.jalrTarget_eq_loadAddress {s : State} {rs1 : Reg} {imm : BitVec 12}
    (h : (loadAddress s rs1 imm).toNat % 4 = 0) : jalrTarget s rs1 imm = loadAddress s rs1 imm := by
  rw [jalrTarget_eq]
  apply BitVec.eq_of_toNat_eq
  rw [BitVec.toNat_ofNat]
  omega

theorem Machine.exec_jalr_pc {s : State} {rs1 : Reg} {imm : BitVec 12} (h : (loadAddress s rs1 imm).toNat % 4 = 0)
    (link : Reg) : ∃ t, exec (.jalr link rs1 imm) s = .next t ∧ t.pc = loadAddress s rs1 imm := by
  rw [exec_jalr, jalrTarget_eq_loadAddress h, jumpAndLink_eq, misaligned_eq_false_iff.mpr h]
  exact ⟨_, rfl, rfl⟩

/-- Settles O41: `auipc` leaves the pc plus the high part in `rd`, and adding the low part makes the offset up again.
Loads, stores and `jalr` form that same sum. -/
theorem farOffsetReachesItsTarget : Obligations.FarOffsetReachesItsTarget := by
  refine ⟨?_, by decide, by decide⟩
  rintro d rd s lo hi hrd hmin hmax rfl rfl
  change ∃ t, exec (.auipc rd (Asm.farHigh d)) s = .next t ∧ _
  have hreach : (s.setReg rd (s.pc + immU (Asm.farHigh d))).advance.reg rd + (Asm.farLow d).signExtend 64 =
      s.pc + d := by
    rw [State.advance_reg, State.reg_setReg_self _ hrd, BitVec.add_assoc, Asm.immU_farHigh_add_farLow hmin hmax]
  refine ⟨_, exec_auipc .., hreach, hreach, hreach, fun h4 link => ?_, ?_⟩
  · obtain ⟨u, hu, hpc⟩ := exec_jalr_pc (imm := Asm.farLow d) (by rw [loadAddress, immI, hreach]; exact h4) link
    exact ⟨u, hu, hpc.trans hreach⟩
  · rintro imm hbit rfl
    exact Asm.farHigh_of_bit_11 hbit

end Sys2Proof
end

section
/-!
The statements about arithmetic (40_arithmetic.md R110 to R114). An instruction that writes one result and advances is
told by that result alone: the frame is proved once (`Sets.of_setReg`), and so is the way from the result and the word to
the rule of a form. What is left for each instruction is its sum as a number.
-/

namespace Sys2Proof

open Machine Claims

/-! ### One register written (R21, R25) -/

theorem Claims.Sets.of_setReg (s : State) (rd : Reg) (v next : Word) :
    Sets s ((s.setReg rd v).setPc next) rd v next := by
  refine ⟨fun hrd => ?result, ?zero, fun r hr => ?others, ?memory, ?status, ?platform, rfl⟩
  case result => rw [State.setPc_reg, State.reg_setReg_self s hrd]
  case zero => exact State.reg_zero _
  case others => rw [State.setPc_reg, State.reg_setReg_other s hr]
  case memory => exact .of_eq (by simp) (by simp)
  case status | platform => simp

theorem Machine.State.advance_setReg (s : State) (rd : Reg) (v : Word) :
    (s.setReg rd v).advance = (s.setReg rd v).setPc (s.pc + 4#64) := by
  rw [State.advance, State.setReg_pc]

/-- An instruction that writes `v` and advances computes `v`. -/
theorem Claims.Computes.of_exec {i : Instr} {rd : Reg} {v : State → Word}
    (h : ∀ s, exec i s = .next (s.setReg rd (v s)).advance) : Computes i rd v := by
  intro s
  rw [h, State.advance_setReg]
  exact ⟨_, rfl, .of_setReg ..⟩

theorem Claims.Computes.computesSome {i : Instr} {rd : Reg} {v : State → Word} {p : State → Word → Prop}
    (h : Computes i rd v) (hp : ∀ s, p s (v s)) : ComputesSome i rd p := by
  intro s
  obtain ⟨t, hexec, hsets⟩ := h s
  exact ⟨t, v s, hexec, hsets, hp s⟩

/-- A register form follows its rule when its word is the R-type word and its result has the property. -/
theorem Claims.RegisterRule.of_exec {make : Reg → Reg → Reg → Instr} {funct7 : BitVec 7} {funct3 : BitVec 3}
    {p : Word → Word → Word → Prop} (f : Word → Word → Word)
    (hword : ∀ rd rs1 rs2, Encodes (wordR funct7 rs2 rs1 funct3 rd 0b0110011#7) (make rd rs1 rs2))
    (hexec : ∀ rd rs1 rs2 s, exec (make rd rs1 rs2) s = .next (s.setReg rd (f (s.reg rs1) (s.reg rs2))).advance)
    (hp : ∀ a b, p a b (f a b)) : RegisterRule make funct7 funct3 p := fun rd rs1 rs2 =>
  ⟨decode_eq_ok_iff.mpr (hword rd rs1 rs2), (Computes.of_exec (hexec rd rs1 rs2)).computesSome fun _ => hp _ _⟩

/-- An immediate form follows its rule when its word is the I-type word and its result has the property. -/
theorem Claims.ImmediateRule.of_exec {make : Reg → Reg → BitVec 12 → Instr} {funct3 : BitVec 3}
    {p : Word → BitVec 12 → Word → Prop} (f : Word → BitVec 12 → Word)
    (hword : ∀ rd rs1 imm, Encodes (wordI imm rs1 funct3 rd 0b0010011#7) (make rd rs1 imm))
    (hexec : ∀ rd rs1 imm s, exec (make rd rs1 imm) s = .next (s.setReg rd (f (s.reg rs1) imm)).advance)
    (hp : ∀ a imm, p a imm (f a imm)) : ImmediateRule make funct3 p := fun rd rs1 imm =>
  ⟨decode_eq_ok_iff.mpr (hword rd rs1 imm), (Computes.of_exec (hexec rd rs1 imm)).computesSome fun _ => hp _ _⟩

/-! ### Sums as numbers (R9, R110) -/

theorem Claims.toNat_offsetBy (a : Word) (offset : Int) :
    ((offsetBy a offset).toNat : Int) = ((a.toNat : Int) + offset) % 2 ^ 64 := by
  rw [offsetBy, BitVec.toNat_ofInt]
  omega

theorem Claims.add_immI (a : Word) (imm : BitVec 12) : a + immI imm = offsetBy a imm.toInt :=
  add_signExtend a imm (by decide)

theorem Claims.add_immU (a : Word) (imm20 : BitVec 20) : a + immU imm20 = offsetBy a (imm20.toInt * 4096) := by
  rw [immU_eq, offsetBy, BitVec.ofInt_add, BitVec.ofInt_natCast, BitVec.ofNat_toNat, BitVec.setWidth_eq]

/-- R112: the hardware takes the difference as a sum with the complement; as a number it is the difference modulo 2^64. -/
theorem Machine.toNat_sub_eq_emod (a b : Word) : ((a - b).toNat : Int) = ((a.toNat : Int) - b.toNat) % 2 ^ 64 := by
  have hb := b.isLt
  rw [BitVec.toNat_sub]
  omega

/-- A sum that wraps is below each of its terms, and one that does not is below neither (R110). -/
theorem Machine.condLtU_add_left (a b : Word) : condLtU (a + b) a = decide (2 ^ 64 ≤ a.toNat + b.toNat) := by
  have ha := a.isLt
  have hb := b.isLt
  rw [condLtU, decide_eq_decide, BitVec.toNat_add]
  omega

/-! ### The instructions -/

theorem Machine.exec_add (rd rs1 rs2 : Reg) (s : State) :
    exec (.add rd rs1 rs2) s = .next (s.setReg rd (s.reg rs1 + s.reg rs2)).advance := rfl

theorem Machine.exec_sub (rd rs1 rs2 : Reg) (s : State) :
    exec (.sub rd rs1 rs2) s = .next (s.setReg rd (s.reg rs1 - s.reg rs2)).advance := rfl

theorem Machine.exec_sltu (rd rs1 rs2 : Reg) (s : State) :
    exec (.sltu rd rs1 rs2) s = .next (s.setReg rd (boolWord (condLtU (s.reg rs1) (s.reg rs2)))).advance := rfl

/-- Settles O25. -/
theorem addSubModuloTwo64 : Obligations.AddSubModuloTwo64 :=
  ⟨.of_exec (· + ·) (fun _ _ _ => ⟨rfl, rfl⟩) exec_add BitVec.toNat_add,
    .of_exec (· - ·) (fun _ _ _ => ⟨rfl, rfl⟩) exec_sub toNat_sub_eq_emod⟩

/-- Settles O26: the sum with `immI` is the sum with the signed immediate. -/
theorem addiAddsSignedImmediate : Obligations.AddiAddsSignedImmediate := by
  refine .of_exec (fun a imm => a + immI imm) (fun _ _ _ => ⟨rfl, rfl⟩) exec_addi fun a imm => ?_
  rw [add_immI, toNat_offsetBy]

/-- Settles O27: `immU` is the signed field times 4096. -/
theorem auipcAddsToItsOwnPc : Obligations.AuipcAddsToItsOwnPc := by
  intro rd imm20
  refine ⟨decode_eq_ok_iff.mpr ⟨rfl, rfl⟩, .of_exec fun s => ?_⟩
  rw [exec_auipc, add_immU]

/-- Settles O28: `rd` holds the sum and `a`, which is not `rd`, is as before, so `sltu` compares the sum with its term. -/
theorem carryTestAfterAdd : Obligations.CarryTestAfterAdd := by
  intro rd a b t s u hrd hne ht hadd
  rw [exec_add] at hadd
  cases hadd
  refine ⟨_, exec_sltu .., ?_⟩
  simp only [State.advance_reg]
  rw [State.reg_setReg_self _ ht, State.reg_setReg_self _ hrd, State.reg_setReg_other _ hne.symm, condLtU_add_left,
    boolWord]
  simp

end Sys2Proof
end

section
/-!
The statements about data transfer (41_data_transfer.md R120 to R134). A load is told by how it widens what it read, and
a store by how many low bytes of the register it writes; the address, the bytes, the fault and the frame are proved once
for all loads (`LoadRule.of_exec`) and once for all stores (`StoreRule.of_exec`). The high part of a 32-bit constant is
what its low part leaves.
-/

namespace Sys2Proof

open Machine Claims

/-! ### Accesses (R45, R46, R53) -/

theorem Claims.fits_iff {s : State} {ea : Word} {n : Nat} : Fits s ea n ↔ accessible s.platform ea n = true :=
  accessible_iff.symm

theorem Machine.loadAddress_eq (s : State) (rs1 : Reg) (imm : BitVec 12) :
    loadAddress s rs1 imm = offsetBy (s.reg rs1) imm.toInt :=
  add_immI ..

theorem Machine.storeAddress_eq (s : State) (rs1 : Reg) (imm : BitVec 12) :
    storeAddress s rs1 imm = offsetBy (s.reg rs1) imm.toInt :=
  add_immI ..

theorem Machine.load_of_fits {s : State} {ea : Word} {n : Nat} (h : Fits s ea n) (rd : Reg)
    (widen : BitVec (8 * n) → Word) :
    load rd ea n widen s = .next ((s.setReg rd (widen (s.mem.read ea.toNat n))).setPc (s.pc + 4#64)) := by
  rw [load_eq, if_pos (fits_iff.mp h), State.advance_setReg]

theorem Machine.load_of_not_fits {s : State} {ea : Word} {n : Nat} (h : ¬ Fits s ea n) (rd : Reg)
    (widen : BitVec (8 * n) → Word) : load rd ea n widen s = .next (faultedWith s (.loadAccessFault ea)) := by
  rw [load_eq, if_neg (fits_iff.not.mp h)]
  rfl

theorem Machine.store_of_fits {s : State} {ea : Word} {n : Nat} (h : Fits s ea n) (v : BitVec (8 * n)) :
    store ea n v s = .next
      (State.advance { s with mem := s.mem.write ea.toNat v n, written := s.written.insertRange ea.toNat n }) := by
  rw [store_eq, if_pos (fits_iff.mp h)]

theorem Machine.store_of_not_fits {s : State} {ea : Word} {n : Nat} (h : ¬ Fits s ea n) (v : BitVec (8 * n)) :
    store ea n v s = .next (faultedWith s (.storeAccessFault ea)) := by
  rw [store_eq, if_neg (fits_iff.not.mp h)]
  rfl

/-! ### Widening a loaded value (R121) -/

/-- The low bits of a sign extension are those of a narrower one. -/
theorem extractLsb'_zero_signExtend {w k n : Nat} (x : BitVec w) (h : k ≤ n) :
    (x.signExtend n).extractLsb' 0 k = x.signExtend k := by
  ext i hi
  simp [← BitVec.getLsbD_eq_getElem, BitVec.getLsbD_signExtend, hi, Nat.lt_of_lt_of_le hi h]

/-- A way to widen `n` loaded bytes to a register: the value stays in the low bits, and every bit above is its top bit,
if signed, or 0. -/
structure Claims.Widens (n : Nat) (signed : Bool) (widen : BitVec (8 * n) → Word) : Prop where
  low : ∀ v, (widen v).extractLsb' 0 (8 * n) = v
  high : ∀ v j, 8 * n ≤ j → j < 64 → (widen v).getLsbD j = (signed && v.msb)

theorem Claims.Widens.signExtend {n : Nat} (hn : n ≤ 8) : Widens n true (BitVec.signExtend 64) where
  low v := (extractLsb'_zero_signExtend v (by omega)).trans v.signExtend_eq
  high v j hlo hhi := by
    rw [BitVec.getLsbD_signExtend]
    simp [hhi, hlo.not_gt]

theorem Claims.Widens.setWidth {n : Nat} (hn : n ≤ 8) : Widens n false (BitVec.setWidth 64) where
  low v := by
    rw [← BitVec.setWidth_eq_extractLsb' (by omega), BitVec.setWidth_setWidth_of_le _ (by omega), BitVec.setWidth_eq]
  high v j hlo hhi := by simp [BitVec.getLsbD_setWidth, BitVec.getLsbD_of_ge v j hlo]

/-- R40: the top bit of a value that was read is that of the byte at the highest address. -/
theorem Machine.Memory.msb_read (m : Memory) (a : Nat) {n : Nat} (hn : 0 < n) :
    (m.read a n).msb = (m.readByte (a + n - 1)).getLsbD 7 := by
  have htop : (8 * n - 1) / 8 = n - 1 ∧ (8 * n - 1) % 8 = 7 ∧ 8 * n - 1 < 8 * n := by omega
  rw [BitVec.msb_eq_getLsbD_last, Memory.getLsbD_read]
  simp [htop, Nat.add_sub_assoc hn]

theorem Claims.Widens.byte_read {n : Nat} {signed : Bool} {widen : BitVec (8 * n) → Word} (h : Widens n signed widen)
    (m : Memory) (a : Nat) {k : Nat} (hk : k < n) :
    (widen (m.read a n)).extractLsb' (8 * k) 8 = m.readByte (a + k) := by
  rw [← BitVec.extractLsb'_extractLsb'_of_le (len' := 8 * n) (by omega), h.low]
  exact Memory.eq_read_iff.mp rfl k hk

/-! ### The loads -/

/-- A load follows its rule when its word is the I-type word and it widens as the rule says. -/
theorem Claims.LoadRule.of_exec {make : Reg → Reg → BitVec 12 → Instr} {funct3 : BitVec 3} {n : Nat}
    {signed : Bool} {widen : BitVec (8 * n) → Word} (hn : 0 < n) (hwiden : Widens n signed widen)
    (hword : ∀ rd rs1 imm, Encodes (wordI imm rs1 funct3 rd 0b0000011#7) (make rd rs1 imm))
    (hexec : ∀ rd rs1 imm s, exec (make rd rs1 imm) s = load rd (loadAddress s rs1 imm) n widen s) :
    LoadRule make funct3 n signed := by
  refine fun rd rs1 imm => ⟨decode_eq_ok_iff.mpr (hword rd rs1 imm), fun s ea hea => ?_⟩
  rw [hexec, loadAddress_eq, ← hea]
  refine ⟨fun hfits => ?_, fun hfits => load_of_not_fits hfits rd widen⟩
  refine ⟨_, _, load_of_fits hfits rd widen, .of_setReg .., fun k => hwiden.byte_read s.mem ea.toNat,
    fun j hlo hhi => ?_⟩
  rw [hwiden.high _ j hlo hhi, Memory.msb_read _ _ hn]

theorem Machine.exec_ld (rd rs1 : Reg) (imm : BitVec 12) (s : State) :
    exec (.ld rd rs1 imm) s = load rd (loadAddress s rs1 imm) 8 (BitVec.setWidth 64) s := rfl

theorem Machine.exec_lw (rd rs1 : Reg) (imm : BitVec 12) (s : State) :
    exec (.lw rd rs1 imm) s = load rd (loadAddress s rs1 imm) 4 (BitVec.signExtend 64) s := rfl

theorem Machine.exec_lwu (rd rs1 : Reg) (imm : BitVec 12) (s : State) :
    exec (.lwu rd rs1 imm) s = load rd (loadAddress s rs1 imm) 4 (BitVec.setWidth 64) s := rfl

theorem Machine.exec_lh (rd rs1 : Reg) (imm : BitVec 12) (s : State) :
    exec (.lh rd rs1 imm) s = load rd (loadAddress s rs1 imm) 2 (BitVec.signExtend 64) s := rfl

theorem Machine.exec_lhu (rd rs1 : Reg) (imm : BitVec 12) (s : State) :
    exec (.lhu rd rs1 imm) s = load rd (loadAddress s rs1 imm) 2 (BitVec.setWidth 64) s := rfl

theorem Machine.exec_lb (rd rs1 : Reg) (imm : BitVec 12) (s : State) :
    exec (.lb rd rs1 imm) s = load rd (loadAddress s rs1 imm) 1 (BitVec.signExtend 64) s := rfl

theorem Machine.exec_lbu (rd rs1 : Reg) (imm : BitVec 12) (s : State) :
    exec (.lbu rd rs1 imm) s = load rd (loadAddress s rs1 imm) 1 (BitVec.setWidth 64) s := rfl

/-- Settles O29. -/
theorem loadsReadMemory : Obligations.LoadsReadMemory := by
  refine ⟨?ld, ?lw, ?lwu, ?lh, ?lhu, ?lb, ?lbu⟩
  case ld => exact .of_exec (by decide) (.setWidth (by decide)) (fun _ _ _ => ⟨rfl, rfl⟩) exec_ld
  case lw => exact .of_exec (by decide) (.signExtend (by decide)) (fun _ _ _ => ⟨rfl, rfl⟩) exec_lw
  case lwu => exact .of_exec (by decide) (.setWidth (by decide)) (fun _ _ _ => ⟨rfl, rfl⟩) exec_lwu
  case lh => exact .of_exec (by decide) (.signExtend (by decide)) (fun _ _ _ => ⟨rfl, rfl⟩) exec_lh
  case lhu => exact .of_exec (by decide) (.setWidth (by decide)) (fun _ _ _ => ⟨rfl, rfl⟩) exec_lhu
  case lb => exact .of_exec (by decide) (.signExtend (by decide)) (fun _ _ _ => ⟨rfl, rfl⟩) exec_lb
  case lbu => exact .of_exec (by decide) (.setWidth (by decide)) (fun _ _ _ => ⟨rfl, rfl⟩) exec_lbu

/-! ### The stores -/

/-- R79: the two parts of the immediate, where the S-type puts them. -/
theorem Claims.wordS_eq_encodeS (imm11_5 : BitVec 7) (rs2 rs1 : Reg) (funct3 : BitVec 3) (imm4_0 : BitVec 5) :
    wordS imm11_5 rs2 rs1 funct3 imm4_0 = encodeS (imm11_5 ++ imm4_0) rs2 rs1 funct3 := by
  have hi : (imm11_5 ++ imm4_0).extractLsb' 5 7 = imm11_5 := BitVec.extractLsb'_append_eq_left
  have lo : (imm11_5 ++ imm4_0).extractLsb' 0 5 = imm4_0 := BitVec.extractLsb'_append_eq_right
  rw [wordS, encodeS, hi, lo]

/-- R46: the bytes in the range of a write of the low bytes of a register are the register's. -/
theorem Machine.Memory.readByte_write_low (m : Memory) (a : Nat) (v : Word) {n k : Nat} (hk : k < n) :
    (m.write a (v.extractLsb' 0 (8 * n)) n).readByte (a + k) = v.extractLsb' (8 * k) 8 := by
  rw [Memory.readByte_write, if_pos (by omega), Nat.add_sub_cancel_left,
    BitVec.extractLsb'_extractLsb'_of_le (by omega)]

/-- A store follows its rule when its word is the S-type word and it writes the low bytes of `rs2`. -/
theorem Claims.StoreRule.of_exec {make : Reg → Reg → BitVec 12 → Instr} {funct3 : BitVec 3} {n : Nat}
    (hword : ∀ rs2 rs1 imm, Encodes (encodeS imm rs2 rs1 funct3) (make rs2 rs1 imm))
    (hexec : ∀ rs2 rs1 imm s, exec (make rs2 rs1 imm) s =
      store (storeAddress s rs1 imm) n ((s.reg rs2).extractLsb' 0 (8 * n)) s) : StoreRule make funct3 n := by
  intro rs2 rs1 imm11_5 imm4_0
  rw [wordS_eq_encodeS]
  generalize (imm11_5 ++ imm4_0 : BitVec 12) = imm
  refine ⟨decode_eq_ok_iff.mpr (hword rs2 rs1 imm), fun s ea hea => ?_⟩
  rw [hexec, storeAddress_eq, ← hea]
  refine ⟨fun hfits => ?_, fun hfits => store_of_not_fits hfits _⟩
  refine ⟨_, store_of_fits hfits _, fun k hk => ?inside, fun a ha => ?outside, fun a => ?written,
    fun _ => rfl, rfl, rfl, rfl⟩
  case inside => exact Memory.readByte_write_low _ _ _ hk
  case outside => exact (Memory.readByte_write ..).trans (if_neg ha)
  case written => exact AddrSet.mem_insertRange.trans or_comm

theorem Machine.exec_sd (rs2 rs1 : Reg) (imm : BitVec 12) (s : State) :
    exec (.sd rs2 rs1 imm) s = store (storeAddress s rs1 imm) 8 ((s.reg rs2).extractLsb' 0 64) s := rfl

theorem Machine.exec_sw (rs2 rs1 : Reg) (imm : BitVec 12) (s : State) :
    exec (.sw rs2 rs1 imm) s = store (storeAddress s rs1 imm) 4 ((s.reg rs2).extractLsb' 0 32) s := rfl

theorem Machine.exec_sh (rs2 rs1 : Reg) (imm : BitVec 12) (s : State) :
    exec (.sh rs2 rs1 imm) s = store (storeAddress s rs1 imm) 2 ((s.reg rs2).extractLsb' 0 16) s := rfl

theorem Machine.exec_sb (rs2 rs1 : Reg) (imm : BitVec 12) (s : State) :
    exec (.sb rs2 rs1 imm) s = store (storeAddress s rs1 imm) 1 ((s.reg rs2).extractLsb' 0 8) s := rfl

/-- Settles O30. -/
theorem storesWriteMemory : Obligations.StoresWriteMemory := by
  refine ⟨?sd, ?sw, ?sh, ?sb⟩
  case sd => exact .of_exec (fun _ _ _ => ⟨rfl, rfl⟩) exec_sd
  case sw => exact .of_exec (fun _ _ _ => ⟨rfl, rfl⟩) exec_sw
  case sh => exact .of_exec (fun _ _ _ => ⟨rfl, rfl⟩) exec_sh
  case sb => exact .of_exec (fun _ _ _ => ⟨rfl, rfl⟩) exec_sb

/-! ### `lui` and 32-bit constants (R82, R134) -/

theorem Machine.exec_lui (rd : Reg) (imm20 : BitVec 20) (s : State) :
    exec (.lui rd imm20) s = .next (s.setReg rd (immU imm20)).advance := rfl

/-- What the sign-extended low part of a constant leaves is a multiple of 4096: its high part with zeros below. -/
theorem sub_signExtend_low_eq_append (c : BitVec 32) :
    c - (c.extractLsb' 0 12).signExtend 32 = (c - (c.extractLsb' 0 12).signExtend 32).extractLsb' 12 20 ++ 0#12 := by
  generalize hrest : c - (c.extractLsb' 0 12).signExtend 32 = rest
  have hsum : rest + (c.extractLsb' 0 12).signExtend 32 = c := by rw [← hrest, BitVec.sub_add_cancel]
  have hlow : rest.extractLsb' 0 12 + c.extractLsb' 0 12 = c.extractLsb' 0 12 := by
    have h := congrArg (BitVec.setWidth 12) hsum
    rwa [BitVec.setWidth_add _ _ (by decide), BitVec.setWidth_eq_extractLsb' (by decide),
      BitVec.setWidth_eq_extractLsb' (by decide), BitVec.setWidth_eq_extractLsb' (by decide),
      extractLsb'_zero_signExtend _ (by decide), BitVec.signExtend_eq] at h
  have hzero : rest.extractLsb' 0 12 = 0#12 := by simpa using hlow
  rw [← hzero]
  exact (BitVec.extractLsb'_append_extractLsb' (w := 20) (len := 12)).symm

/-- The sum of the two parts has the constant in its low half. -/
theorem Machine.extractLsb'_immU_add_immI {c : BitVec 32} {lo : BitVec 12} {hi : BitVec 20}
    (hlo : lo = c.extractLsb' 0 12) (hhi : hi = (c - lo.signExtend 32).extractLsb' 12 20) :
    (immU hi + immI lo).extractLsb' 0 32 = c := by
  subst hlo
  calc (immU hi + immI (c.extractLsb' 0 12)).extractLsb' 0 32
    _ = (immU hi).extractLsb' 0 32 + (immI (c.extractLsb' 0 12)).extractLsb' 0 32 := by
      have hle : 32 ≤ 64 := by decide
      simp only [← BitVec.setWidth_eq_extractLsb' hle, BitVec.setWidth_add _ _ hle]
    _ = (hi ++ 0#12) + (c.extractLsb' 0 12).signExtend 32 := by
      rw [immU, immI, extractLsb'_zero_signExtend _ (by decide), extractLsb'_zero_signExtend _ (by decide),
        BitVec.signExtend_eq]
    _ = c := by rw [hhi, ← sub_signExtend_low_eq_append, BitVec.sub_add_cancel]

/-- Settles O31: `lui` leaves the high part in `rd`, and `addi` adds the low part to it. -/
theorem luiPlacesItsField : Obligations.LuiPlacesItsField := by
  refine ⟨fun rd imm20 => ⟨decode_eq_ok_iff.mpr ⟨rfl, rfl⟩, .of_exec fun s => ?_⟩, ?_⟩
  · rw [exec_lui, immU_eq]
  · intro c rd s lo hi hrd hlo hhi
    refine ⟨_, _, exec_lui .., exec_addi .., ?_⟩
    simp only [State.advance_reg, State.reg_setReg_self _ hrd]
    exact extractLsb'_immU_add_immI hlo hhi

end Sys2Proof
end

section
/-!
The statements about the logical instructions (42_logical.md R140 to R146). Bit `i` of a result is made of bit `i` of each
operand, and bit `i` of the sign-extended immediate is `immBit imm i` (R140); the word and the frame are those of the form
(`RegisterRule.of_exec`, `ImmediateRule.of_exec`).
-/

namespace Sys2Proof

open Machine Claims

/-! ### The immediate (R78, R140) -/

theorem Claims.getLsbD_immI_eq_immBit (imm : BitVec 12) {i : Nat} (hi : i < 64) :
    (immI imm).getLsbD i = immBit imm i := by
  rw [getLsbD_immI imm hi, immBit]

/-- A logical immediate form follows its rule when its word is the I-type word and it applies to `x[rs1]` and `immI` an
operation that works bit by bit. -/
theorem Claims.ImmediateRule.of_bitwise {make : Reg → Reg → BitVec 12 → Instr} {funct3 : BitVec 3}
    (onBits : Bool → Bool → Bool) {onWords : Word → Word → Word}
    (hbits : ∀ a b i, (onWords a b).getLsbD i = onBits (a.getLsbD i) (b.getLsbD i))
    (hword : ∀ rd rs1 imm, Encodes (wordI imm rs1 funct3 rd 0b0010011#7) (make rd rs1 imm))
    (hexec : ∀ rd rs1 imm s,
      exec (make rd rs1 imm) s = .next (s.setReg rd (onWords (s.reg rs1) (immI imm))).advance) :
    ImmediateRule make funct3 (fun a imm v => ∀ i < 64, v.getLsbD i = onBits (a.getLsbD i) (immBit imm i)) := by
  refine .of_exec (fun a imm => onWords a (immI imm)) hword hexec fun a imm i hi => ?_
  rw [hbits, getLsbD_immI_eq_immBit imm hi]

/-! ### The instructions -/

theorem Machine.exec_and (rd rs1 rs2 : Reg) (s : State) :
    exec (.and rd rs1 rs2) s = .next (s.setReg rd (s.reg rs1 &&& s.reg rs2)).advance := rfl

theorem Machine.exec_or (rd rs1 rs2 : Reg) (s : State) :
    exec (.or rd rs1 rs2) s = .next (s.setReg rd (s.reg rs1 ||| s.reg rs2)).advance := rfl

theorem Machine.exec_xor (rd rs1 rs2 : Reg) (s : State) :
    exec (.xor rd rs1 rs2) s = .next (s.setReg rd (s.reg rs1 ^^^ s.reg rs2)).advance := rfl

theorem Machine.exec_andi (rd rs1 : Reg) (imm : BitVec 12) (s : State) :
    exec (.andi rd rs1 imm) s = .next (s.setReg rd (s.reg rs1 &&& immI imm)).advance := rfl

theorem Machine.exec_ori (rd rs1 : Reg) (imm : BitVec 12) (s : State) :
    exec (.ori rd rs1 imm) s = .next (s.setReg rd (s.reg rs1 ||| immI imm)).advance := rfl

theorem Machine.exec_xori (rd rs1 : Reg) (imm : BitVec 12) (s : State) :
    exec (.xori rd rs1 imm) s = .next (s.setReg rd (s.reg rs1 ^^^ immI imm)).advance := rfl

/-- Settles O33. -/
theorem logicalRegisterForms : Obligations.LogicalRegisterForms := by
  refine ⟨?and, ?or, ?xor⟩
  case and => exact .of_exec (· &&& ·) (fun _ _ _ => ⟨rfl, rfl⟩) exec_and fun _ _ _ _ => BitVec.getLsbD_and
  case or => exact .of_exec (· ||| ·) (fun _ _ _ => ⟨rfl, rfl⟩) exec_or fun _ _ _ _ => BitVec.getLsbD_or
  case xor => exact .of_exec (· ^^^ ·) (fun _ _ _ => ⟨rfl, rfl⟩) exec_xor fun _ _ _ _ => BitVec.getLsbD_xor

/-- Settles O34: the operand beside `x[rs1]` is the sign-extended immediate. -/
theorem logicalImmediateForms : Obligations.LogicalImmediateForms := by
  refine ⟨?andi, ?ori, ?xori⟩
  case andi => exact .of_bitwise (· && ·) (fun _ _ _ => BitVec.getLsbD_and) (fun _ _ _ => ⟨rfl, rfl⟩) exec_andi
  case ori => exact .of_bitwise (· || ·) (fun _ _ _ => BitVec.getLsbD_or) (fun _ _ _ => ⟨rfl, rfl⟩) exec_ori
  case xori => exact .of_bitwise (· != ·) (fun _ _ _ => BitVec.getLsbD_xor) (fun _ _ _ => ⟨rfl, rfl⟩) exec_xori

end Sys2Proof
end

section
/-!
The statements about the shifts (43_shift.md R150 to R157). Each shift is told once, by an amount below 64 (R150): its bits
and its product or quotient. A register form and an immediate form of one shift differ in where the amount comes from alone
(R151), so the step from the law to the rule is proved once for each form.
-/

namespace Sys2Proof

open Machine Claims

/-! ### The shift laws (R150) -/

theorem Claims.ShiftedLeft.shiftLeft (a : Word) (n : Nat) : ShiftedLeft a n (a <<< n) := by
  refine ⟨fun i hi => ?bits, ?product⟩
  case bits =>
    rw [BitVec.getLsbD_shiftLeft]
    by_cases h : n ≤ i <;> simp [h, hi]
  case product => rw [BitVec.toNat_shiftLeft, Nat.shiftLeft_eq]

theorem Claims.ShiftedRight.ushiftRight (a : Word) {n : Nat} (hn : n < 64) : ShiftedRight a n (a >>> n) := by
  refine ⟨fun i hi => ?bits, ?quotient⟩
  case bits =>
    rw [BitVec.getLsbD_ushiftRight, Nat.add_comm]
    split
    · rfl
    · exact BitVec.getLsbD_of_ge a _ (by omega)
  case quotient => rw [BitVec.toNat_ushiftRight, Nat.shiftRight_eq_div_pow]

theorem Claims.ShiftedRightSigned.sshiftRight (a : Word) {n : Nat} (hn : n < 64) :
    ShiftedRightSigned a n (a.sshiftRight n) := by
  refine ⟨fun i hi => ?bits, ?quotient⟩
  case bits =>
    have hin : n + i < 64 ↔ i ≤ 63 - n := by omega
    rw [BitVec.getLsbD_sshiftRight, BitVec.msb_eq_getLsbD_last, Nat.add_comm i n]
    simp [hin, hi]
  case quotient =>
    rw [BitVec.toInt_sshiftRight, Int.shiftRight_eq_div_pow]
    norm_cast

/-! ### The amount (R83, R151) -/

/-- A register form follows its rule when its word is the R-type word and it shifts `x[rs1]` as the law says, by the
amount that `x[rs2]` gives. -/
theorem Claims.RegisterRule.of_shift {make : Reg → Reg → Reg → Instr} {funct7 : BitVec 7} {funct3 : BitVec 3}
    {p : Word → Nat → Word → Prop} (shift : Word → Nat → Word)
    (hword : ∀ rd rs1 rs2, Encodes (wordR funct7 rs2 rs1 funct3 rd 0b0110011#7) (make rd rs1 rs2))
    (hexec : ∀ rd rs1 rs2 s,
      exec (make rd rs1 rs2) s = .next (s.setReg rd (shift (s.reg rs1) (shiftAmount (s.reg rs2)))).advance)
    (hlaw : ∀ a n, n < 64 → p a n (shift a n)) :
    RegisterRule make funct7 funct3 (fun a b v => p a (b.toNat % 64) v) := by
  refine .of_exec (fun a b => shift a (shiftAmount b)) hword hexec fun a b => ?_
  rw [shiftAmount_eq]
  exact hlaw a _ (Nat.mod_lt _ (by decide))

/-- An immediate form follows its rule when its word is that of the sub-form and it shifts `x[rs1]` as the law says, by
the amount in its field. -/
theorem Claims.ShiftRule.of_shift {make : Reg → Reg → BitVec 6 → Instr} {funct6 : BitVec 6} {funct3 : BitVec 3}
    {p : Word → Nat → Word → Prop} (shift : Word → Nat → Word)
    (hword : ∀ rd rs1 shamt, Encodes (wordShift funct6 shamt rs1 funct3 rd) (make rd rs1 shamt))
    (hexec : ∀ rd rs1 shamt s,
      exec (make rd rs1 shamt) s = .next (s.setReg rd (shift (s.reg rs1) shamt.toNat)).advance)
    (hlaw : ∀ a n, n < 64 → p a n (shift a n)) : ShiftRule make funct6 funct3 p := fun rd rs1 shamt =>
  ⟨decode_eq_ok_iff.mpr (hword rd rs1 shamt),
    (Computes.of_exec (hexec rd rs1 shamt)).computesSome fun _ => hlaw _ _ shamt.isLt⟩

/-! ### The instructions -/

theorem Machine.exec_sll (rd rs1 rs2 : Reg) (s : State) :
    exec (.sll rd rs1 rs2) s = .next (s.setReg rd (s.reg rs1 <<< shiftAmount (s.reg rs2))).advance := rfl

theorem Machine.exec_srl (rd rs1 rs2 : Reg) (s : State) :
    exec (.srl rd rs1 rs2) s = .next (s.setReg rd (s.reg rs1 >>> shiftAmount (s.reg rs2))).advance := rfl

theorem Machine.exec_sra (rd rs1 rs2 : Reg) (s : State) :
    exec (.sra rd rs1 rs2) s = .next (s.setReg rd ((s.reg rs1).sshiftRight (shiftAmount (s.reg rs2)))).advance := rfl

theorem Machine.exec_slli (rd rs1 : Reg) (shamt : BitVec 6) (s : State) :
    exec (.slli rd rs1 shamt) s = .next (s.setReg rd (s.reg rs1 <<< shamt.toNat)).advance := rfl

theorem Machine.exec_srli (rd rs1 : Reg) (shamt : BitVec 6) (s : State) :
    exec (.srli rd rs1 shamt) s = .next (s.setReg rd (s.reg rs1 >>> shamt.toNat)).advance := rfl

theorem Machine.exec_srai (rd rs1 : Reg) (shamt : BitVec 6) (s : State) :
    exec (.srai rd rs1 shamt) s = .next (s.setReg rd ((s.reg rs1).sshiftRight shamt.toNat)).advance := rfl

/-- Settles O35. -/
theorem shiftRegisterForms : Obligations.ShiftRegisterForms := by
  refine ⟨?sll, ?srl, ?sra⟩
  case sll => exact .of_shift (· <<< ·) (fun _ _ _ => ⟨rfl, rfl⟩) exec_sll fun a n _ => .shiftLeft a n
  case srl => exact .of_shift (· >>> ·) (fun _ _ _ => ⟨rfl, rfl⟩) exec_srl fun a _ => .ushiftRight a
  case sra => exact .of_shift .sshiftRight (fun _ _ _ => ⟨rfl, rfl⟩) exec_sra fun a _ => .sshiftRight a

/-- Settles O36. -/
theorem shiftImmediateForms : Obligations.ShiftImmediateForms := by
  refine ⟨?slli, ?srli, ?srai⟩
  case slli => exact .of_shift (· <<< ·) (fun _ _ _ => ⟨rfl, rfl⟩) exec_slli fun a n _ => .shiftLeft a n
  case srli => exact .of_shift (· >>> ·) (fun _ _ _ => ⟨rfl, rfl⟩) exec_srli fun a _ => .ushiftRight a
  case srai => exact .of_shift .sshiftRight (fun _ _ _ => ⟨rfl, rfl⟩) exec_srai fun a _ => .sshiftRight a

end Sys2Proof
end

section
/-!
The statements about the conditional branches (44_conditional_branch.md R160 to R168). A branch ends in one of three ways
(R160, R161), told once for all six; what is left for each branch is that its test is the condition of its rule (R162).
-/

namespace Sys2Proof

open Machine Claims

/-! ### The word (R76, R80) -/

/-- The low part of a word has no share in what is cut out above it: the library's law with the cut counted from there. -/
theorem extractLsb'_append_above {m k lo n : Nat} (x : BitVec m) (y : BitVec k) :
    (x ++ y).extractLsb' (k + lo) n = x.extractLsb' lo n := by
  rw [BitVec.extractLsb'_append_eq_of_le (by omega), Nat.add_sub_cancel_left]

/-- R80: the four parts of the offset, where the B-type puts them; bit 0 has no place. -/
theorem Claims.wordB_eq_encodeB (imm12 : BitVec 1) (imm10_5 : BitVec 6) (rs2 rs1 : Reg) (funct3 : BitVec 3)
    (imm4_1 : BitVec 4) (imm11 : BitVec 1) :
    wordB imm12 imm10_5 rs2 rs1 funct3 imm4_1 imm11 =
      encodeB (imm12 ++ imm11 ++ imm10_5 ++ imm4_1 ++ 0#1) rs2 rs1 funct3 := by
  have low : (imm12 ++ imm11 ++ imm10_5 ++ imm4_1 ++ 0#1).extractLsb' 1 4 = imm4_1 :=
    (extractLsb'_append_above _ 0#1).trans BitVec.extractLsb'_append_eq_right
  have high : (imm12 ++ imm11 ++ imm10_5 ++ imm4_1 ++ 0#1).extractLsb' 5 6 = imm10_5 :=
    (extractLsb'_append_above _ 0#1).trans <| (extractLsb'_append_above _ imm4_1).trans BitVec.extractLsb'_append_eq_right
  have bit11 : (imm12 ++ imm11 ++ imm10_5 ++ imm4_1 ++ 0#1).extractLsb' 11 1 = imm11 :=
    (extractLsb'_append_above _ 0#1).trans <| (extractLsb'_append_above _ imm4_1).trans <|
      (extractLsb'_append_above _ imm10_5).trans BitVec.extractLsb'_append_eq_right
  have bit12 : (imm12 ++ imm11 ++ imm10_5 ++ imm4_1 ++ 0#1).extractLsb' 12 1 = imm12 :=
    (extractLsb'_append_above _ 0#1).trans <| (extractLsb'_append_above _ imm4_1).trans <|
      (extractLsb'_append_above _ imm10_5).trans BitVec.extractLsb'_append_eq_left
  rw [wordB, encodeB, bit12, bit11, high, low]

/-! ### The three ways a branch ends (R160, R161) -/

theorem Machine.branchTarget_eq (s : State) (offset : BitVec 13) :
    branchTarget s offset = offsetBy s.pc offset.toInt :=
  add_signExtend s.pc offset (by decide)

theorem Machine.branchIf_taken_aligned {target : Word} (h : target.toNat % 4 = 0) (s : State) :
    branchIf true target s = .next { s with pc := target } := by
  rw [branchIf_eq, misaligned_eq_false_iff.mpr h]
  rfl

theorem Machine.branchIf_taken_misaligned {target : Word} (h : target.toNat % 4 ≠ 0) (s : State) :
    branchIf true target s = .next (faultedWith s (.instructionAddressMisaligned target)) := by
  rw [branchIf_eq, Bool.of_not_eq_false (misaligned_eq_false_iff.not.mpr h)]
  rfl

/-- R161: a branch that is not taken raises nothing, whatever its target. -/
theorem Machine.branchIf_untaken (target : Word) (s : State) :
    branchIf false target s = .next { s with pc := s.pc + 4#64 } := rfl

/-- A branch follows its rule when its word is the B-type word and its test of the two registers is the condition. -/
theorem Claims.BranchRule.of_exec {make : Reg → Reg → BitVec 13 → Instr} {funct3 : BitVec 3}
    {cond : Word → Word → Prop} (test : Word → Word → Bool)
    (hword : ∀ rs1 rs2 offset, evenOffset offset = true →
      Encodes (encodeB offset rs2 rs1 funct3) (make rs1 rs2 offset))
    (hexec : ∀ rs1 rs2 offset s, exec (make rs1 rs2 offset) s =
      branchIf (test (s.reg rs1) (s.reg rs2)) (branchTarget s offset) s)
    (htest : ∀ a b, test a b = true ↔ cond a b) : BranchRule make funct3 cond := by
  refine ⟨fun rs1 rs2 imm12 imm10_5 imm4_1 imm11 => ?word, fun rs1 rs2 offset s target htarget => ?outcome⟩
  case word =>
    rw [wordB_eq_encodeB]
    exact decode_eq_ok_iff.mpr (hword _ _ _ (evenOffset_append_zero _))
  case outcome =>
    rw [hexec, branchTarget_eq, ← htarget, ← htest]
    refine ⟨fun htaken haligned => ?_, fun htaken hmisaligned => ?_, fun huntaken => ?_⟩
    · rw [htaken, branchIf_taken_aligned haligned]
    · rw [htaken, branchIf_taken_misaligned hmisaligned]
    · rw [Bool.of_not_eq_true huntaken, branchIf_untaken]

/-! ### The conditions (R9, R162) -/

theorem Machine.condEq_iff (a b : Word) : condEq a b = true ↔ a = b := beq_iff_eq

theorem Machine.condLtS_iff (a b : Word) : condLtS a b = true ↔ a.toInt < b.toInt := decide_eq_true_iff

theorem Machine.condLtU_iff (a b : Word) : condLtU a b = true ↔ a.toNat < b.toNat := decide_eq_true_iff

theorem Machine.not_condEq_iff (a b : Word) : (!condEq a b) = true ↔ a ≠ b := by
  rw [Bool.not_eq_true', ← Bool.not_eq_true, condEq_iff]

theorem Machine.not_condLtS_iff (a b : Word) : (!condLtS a b) = true ↔ b.toInt ≤ a.toInt := by
  rw [Bool.not_eq_true', ← Bool.not_eq_true, condLtS_iff, not_lt]

theorem Machine.not_condLtU_iff (a b : Word) : (!condLtU a b) = true ↔ b.toNat ≤ a.toNat := by
  rw [Bool.not_eq_true', ← Bool.not_eq_true, condLtU_iff, not_lt]

/-! ### The instructions -/

theorem Machine.exec_beq (rs1 rs2 : Reg) (offset : BitVec 13) (s : State) : exec (.beq rs1 rs2 offset) s =
    branchIf (condEq (s.reg rs1) (s.reg rs2)) (branchTarget s offset) s := rfl

theorem Machine.exec_bne (rs1 rs2 : Reg) (offset : BitVec 13) (s : State) : exec (.bne rs1 rs2 offset) s =
    branchIf (!condEq (s.reg rs1) (s.reg rs2)) (branchTarget s offset) s := rfl

theorem Machine.exec_blt (rs1 rs2 : Reg) (offset : BitVec 13) (s : State) : exec (.blt rs1 rs2 offset) s =
    branchIf (condLtS (s.reg rs1) (s.reg rs2)) (branchTarget s offset) s := rfl

theorem Machine.exec_bge (rs1 rs2 : Reg) (offset : BitVec 13) (s : State) : exec (.bge rs1 rs2 offset) s =
    branchIf (!condLtS (s.reg rs1) (s.reg rs2)) (branchTarget s offset) s := rfl

theorem Machine.exec_bltu (rs1 rs2 : Reg) (offset : BitVec 13) (s : State) : exec (.bltu rs1 rs2 offset) s =
    branchIf (condLtU (s.reg rs1) (s.reg rs2)) (branchTarget s offset) s := rfl

theorem Machine.exec_bgeu (rs1 rs2 : Reg) (offset : BitVec 13) (s : State) : exec (.bgeu rs1 rs2 offset) s =
    branchIf (!condLtU (s.reg rs1) (s.reg rs2)) (branchTarget s offset) s := rfl

/-- Settles O37: `bne`, `bge` and `bgeu` negate the tests of `beq`, `blt` and `bltu`. -/
theorem branchesGoOrAdvance : Obligations.BranchesGoOrAdvance := by
  refine ⟨?beq, ?bne, ?blt, ?bge, ?bltu, ?bgeu⟩
  case beq => exact .of_exec condEq (fun _ _ _ heven => ⟨rfl, heven⟩) exec_beq condEq_iff
  case bne => exact .of_exec (!condEq · ·) (fun _ _ _ heven => ⟨rfl, heven⟩) exec_bne not_condEq_iff
  case blt => exact .of_exec condLtS (fun _ _ _ heven => ⟨rfl, heven⟩) exec_blt condLtS_iff
  case bge => exact .of_exec (!condLtS · ·) (fun _ _ _ heven => ⟨rfl, heven⟩) exec_bge not_condLtS_iff
  case bltu => exact .of_exec condLtU (fun _ _ _ heven => ⟨rfl, heven⟩) exec_bltu condLtU_iff
  case bgeu => exact .of_exec (!condLtU · ·) (fun _ _ _ heven => ⟨rfl, heven⟩) exec_bgeu not_condLtU_iff

end Sys2Proof
end

section
/-!
The statements about the unconditional branches (45_unconditional_branch.md R170 to R174). The two ways a jump ends (R171)
are told once, for `jal` and `jalr`; what is left for each is its word and its target.
-/

namespace Sys2Proof

open Machine Claims

/-! ### The word of `jal` (R77, R81) -/

/-- R81: the four parts of the offset, where the J-type puts them; bit 0 has no place. -/
theorem Claims.wordJ_eq_encodeJ (imm20 : BitVec 1) (imm10_1 : BitVec 10) (imm11 : BitVec 1) (imm19_12 : BitVec 8)
    (rd : Reg) :
    wordJ imm20 imm10_1 imm11 imm19_12 rd = encodeJ (imm20 ++ imm19_12 ++ imm11 ++ imm10_1 ++ 0#1) rd := by
  have low : (imm20 ++ imm19_12 ++ imm11 ++ imm10_1 ++ 0#1).extractLsb' 1 10 = imm10_1 :=
    (extractLsb'_append_above _ 0#1).trans BitVec.extractLsb'_append_eq_right
  have bit11 : (imm20 ++ imm19_12 ++ imm11 ++ imm10_1 ++ 0#1).extractLsb' 11 1 = imm11 :=
    (extractLsb'_append_above _ 0#1).trans <| (extractLsb'_append_above _ imm10_1).trans BitVec.extractLsb'_append_eq_right
  have high : (imm20 ++ imm19_12 ++ imm11 ++ imm10_1 ++ 0#1).extractLsb' 12 8 = imm19_12 :=
    (extractLsb'_append_above _ 0#1).trans <| (extractLsb'_append_above _ imm10_1).trans <|
      (extractLsb'_append_above _ imm11).trans BitVec.extractLsb'_append_eq_right
  have bit20 : (imm20 ++ imm19_12 ++ imm11 ++ imm10_1 ++ 0#1).extractLsb' 20 1 = imm20 :=
    (extractLsb'_append_above _ 0#1).trans <| (extractLsb'_append_above _ imm10_1).trans <|
      (extractLsb'_append_above _ imm11).trans BitVec.extractLsb'_append_eq_left
  rw [wordJ, encodeJ, bit20, low, bit11, high]

/-! ### The targets (R173, R174) -/

theorem Machine.jalTarget_eq (s : State) (offset : BitVec 21) : jalTarget s offset = offsetBy s.pc offset.toInt :=
  add_signExtend s.pc offset (by decide)

theorem Machine.loadAddress_zero (s : State) (rs1 : Reg) : loadAddress s rs1 0#12 = s.reg rs1 :=
  BitVec.add_zero _

/-! ### The two ways a jump ends (R170, R171) -/

theorem Machine.jumpAndLink_aligned {target : Word} (h : target.toNat % 4 = 0) (rd : Reg) (s : State) :
    jumpAndLink rd target s = .next ((s.setReg rd (s.pc + 4#64)).setPc target) := by
  rw [jumpAndLink_eq, misaligned_eq_false_iff.mpr h]
  rfl

theorem Machine.jumpAndLink_misaligned {target : Word} (h : target.toNat % 4 ≠ 0) (rd : Reg) (s : State) :
    jumpAndLink rd target s = .next (faultedWith s (.instructionAddressMisaligned target)) := by
  rw [jumpAndLink_eq, Bool.of_not_eq_false (misaligned_eq_false_iff.not.mpr h)]
  rfl

/-- An instruction that jumps to `target` and links in `rd` does both, or records the fault and does neither. -/
theorem Claims.sets_or_faulted_of_jumpAndLink {i : Instr} {rd : Reg} {target : Word} {s : State}
    (hexec : exec i s = jumpAndLink rd target s) :
    (target.toNat % 4 = 0 → ∃ t, exec i s = .next t ∧ Sets s t rd (s.pc + 4#64) target) ∧
    (target.toNat % 4 ≠ 0 → exec i s = .next (faultedWith s (.instructionAddressMisaligned target))) :=
  ⟨fun haligned => ⟨_, hexec.trans (jumpAndLink_aligned haligned rd s), .of_setReg ..⟩,
    fun hmisaligned => hexec.trans (jumpAndLink_misaligned hmisaligned rd s)⟩

/-! ### The instructions -/

theorem Machine.exec_jal (rd : Reg) (offset : BitVec 21) (s : State) :
    exec (.jal rd offset) s = jumpAndLink rd (jalTarget s offset) s := rfl

/-- Settles O39. -/
theorem jalrLinksAndJumps : Obligations.JalrLinksAndJumps := by
  refine fun rd rs1 imm => ⟨decode_eq_ok_iff.mpr ⟨rfl, rfl⟩, ?_⟩
  rintro s sum target rfl rfl
  refine sets_or_faulted_of_jumpAndLink ?_
  rw [exec_jalr, jalrTarget_eq, loadAddress_eq]

/-- Settles O38: an offset put together from its four parts is even, so that its word is the encoder's. -/
theorem jalLinksAndJumps : Obligations.JalLinksAndJumps := by
  refine ⟨fun rd imm20 imm10_1 imm11 imm19_12 => ?word, ?outcome⟩
  case word =>
    exact decode_eq_ok_iff.mpr ⟨(wordJ_eq_encodeJ ..).symm, evenOffset_append_zero _⟩
  case outcome =>
    rintro rd offset s target rfl
    refine sets_or_faulted_of_jumpAndLink ?_
    rw [exec_jal, jalTarget_eq]

/-! ### Call and return (R172) -/

/-- A call that leaves the run running did not fault, so the link is in its register. -/
theorem Machine.reg_eq_link_of_exec_jal {rd : Reg} {offset : BitVec 21} {s t : State} (hrd : rd ≠ 0#5)
    (hexec : exec (.jal rd offset) s = .next t) (hrun : t.status = .running) : t.reg rd = s.pc + 4#64 := by
  rw [exec_jal] at hexec
  by_cases haligned : (jalTarget s offset).toNat % 4 = 0
  case pos =>
    rw [jumpAndLink_aligned haligned] at hexec
    cases hexec
    rw [State.setPc_reg, State.reg_setReg_self s hrd]
  case neg =>
    rw [jumpAndLink_misaligned haligned] at hexec
    cases hexec
    cases hrun

/-- R172: a jump that links in `x0` changes the pc and nothing else (R21). -/
theorem Machine.exec_jalr_return {u : State} {rs1 : Reg} (h : (u.reg rs1).toNat % 4 = 0) :
    exec (.jalr 0#5 rs1 0#12) u = .next { u with pc := u.reg rs1 } := by
  rw [← loadAddress_zero] at h
  rw [exec_jalr, jalrTarget_eq_loadAddress h, jumpAndLink_aligned h, State.setReg_zero, loadAddress_zero]
  rfl

/-- Settles O40: the link is the call's pc plus 4, a multiple of 4 as the pc is, so the return does not fault. -/
theorem returnFollowsCall : Obligations.ReturnFollowsCall := by
  intro rd offset s t u hrd hpc hcall htrun _ hkept
  have hlink : u.reg rd = s.pc + 4#64 := hkept.trans (reg_eq_link_of_exec_jal hrd hcall htrun)
  rw [exec_jalr_return (hlink ▸ add_four_aligned hpc), hlink]

end Sys2Proof
end

section
/-!
The statements about the compare instructions (46_compare.md R180 to R184). A compare writes its test as 1 or 0 (R184); the
tests of two words are those of the branches (`condLtS_iff`, `condLtU_iff`). What is left is the immediate, which is read
as signed for `slti` and modulo 2^64 for `sltiu`.
-/

namespace Sys2Proof

open Machine Claims

/-! ### The value of a test (R184) -/

theorem Machine.boolWord_of_iff {c : Bool} {p : Prop} [Decidable p] (h : c = true ↔ p) :
    boolWord c = if p then 1#64 else 0#64 :=
  if_congr h rfl rfl

/-! ### The immediate as a number (R78, R182, R183) -/

theorem Machine.toInt_immI (imm : BitVec 12) : (immI imm).toInt = imm.toInt :=
  BitVec.toInt_signExtend_of_le (by decide)

/-- R183: the sign-extended immediate, read as unsigned, is the signed one modulo 2^64. -/
theorem Machine.toNat_immI (imm : BitVec 12) : ((immI imm).toNat : Int) = imm.toInt % 2 ^ 64 := by
  rw [immI, BitVec.signExtend, BitVec.toNat_ofInt]
  omega

theorem Machine.condLtS_immI_iff (a : Word) (imm : BitVec 12) :
    condLtS a (immI imm) = true ↔ a.toInt < imm.toInt := by
  rw [condLtS_iff, toInt_immI]

theorem Machine.condLtU_immI_iff (a : Word) (imm : BitVec 12) :
    condLtU a (immI imm) = true ↔ (a.toNat : Int) < imm.toInt % 2 ^ 64 := by
  rw [condLtU_iff, ← toNat_immI, Int.ofNat_lt]

/-! ### The instructions -/

theorem Machine.exec_slt (rd rs1 rs2 : Reg) (s : State) :
    exec (.slt rd rs1 rs2) s = .next (s.setReg rd (boolWord (condLtS (s.reg rs1) (s.reg rs2)))).advance := rfl

theorem Machine.exec_slti (rd rs1 : Reg) (imm : BitVec 12) (s : State) :
    exec (.slti rd rs1 imm) s = .next (s.setReg rd (boolWord (condLtS (s.reg rs1) (immI imm)))).advance := rfl

theorem Machine.exec_sltiu (rd rs1 : Reg) (imm : BitVec 12) (s : State) :
    exec (.sltiu rd rs1 imm) s = .next (s.setReg rd (boolWord (condLtU (s.reg rs1) (immI imm)))).advance := rfl

/-- Settles O42. -/
theorem comparesGiveOneOrZero : Obligations.ComparesGiveOneOrZero := by
  refine ⟨?slt, ?sltu, ?slti, ?sltiu⟩
  case slt =>
    exact .of_exec (fun a b => boolWord (condLtS a b)) (fun _ _ _ => ⟨rfl, rfl⟩) exec_slt fun a b =>
      boolWord_of_iff (condLtS_iff a b)
  case sltu =>
    exact .of_exec (fun a b => boolWord (condLtU a b)) (fun _ _ _ => ⟨rfl, rfl⟩) exec_sltu fun a b =>
      boolWord_of_iff (condLtU_iff a b)
  case slti =>
    exact .of_exec (fun a imm => boolWord (condLtS a (immI imm))) (fun _ _ _ => ⟨rfl, rfl⟩) exec_slti fun a imm =>
      boolWord_of_iff (condLtS_immI_iff a imm)
  case sltiu =>
    exact .of_exec (fun a imm => boolWord (condLtU a (immI imm))) (fun _ _ _ => ⟨rfl, rfl⟩) exec_sltiu fun a imm =>
      boolWord_of_iff (condLtU_immI_iff a imm)

end Sys2Proof
end

section
/-!
The statements about faults and the end of a run (60_exceptions.md R201, R203; 10_state.md R32). Of the ways an instruction
of a running state can end, `raise` alone leaves a `Faulted` status; so a step that ends in a fault is a `raise`.
-/

namespace Sys2Proof

open Machine Claims

/-! ### A run that is over (R32, R201, R246) -/

theorem Machine.step_of_halted {s : State} (h : s.status = .halted) : step s = .fault .runHalted := by
  simp [step, h]

theorem Machine.step_of_faulted {s : State} {cause : FaultCause} {pc : Word} (h : s.status = .faulted cause pc) :
    step s = .fault (.runFaulted cause pc) := by
  simp [step, h]

/-- Settles O11: the step reads the status first. -/
theorem endedRunsHaveNoNextStep : Obligations.EndedRunsHaveNoNextStep :=
  fun _ => ⟨step_of_halted, fun _ _ => step_of_faulted⟩

/-! ### Words of no row (R91, R203) -/

theorem decode_ne_ok_of_no_row {w : Insn} (h : ∀ r ∈ tableRows, w &&& r.mask ≠ r.value) (i : Instr) :
    decode w ≠ .ok i := by
  intro hd
  obtain ⟨-, hrow, -, -⟩ := decodeFollowsOpcodeTable
  obtain ⟨hmem, hmatch⟩ := hrow w i hd
  exact h _ hmem hmatch

/-- Settles O9: a word that decodes matches the row of its instruction, so this one does not decode. -/
theorem wordsOfNoRowAreIllegal : Obligations.WordsOfNoRowAreIllegal := by
  intro s hs hpc hv hw hrows
  obtain ⟨-, -, -, hfetched⟩ := stepChecksInOrder s hs
  obtain ⟨-, hillegal, -⟩ := hfetched hpc hv hw
  exact hillegal (decode_ne_ok_of_no_row hrows)

/-! ### Faults are precise (R201) -/

theorem Machine.eq_raise_of_raise_faulted {s : State} {c cause : FaultCause} {pc : Word}
    (h : (raise c s).status = .faulted cause pc) : pc = s.pc ∧ raise c s = raise cause s := by
  rw [raise_status] at h
  cases h
  exact ⟨rfl, rfl⟩

/-- Any other end of an instruction keeps the status, which is `running`. -/
theorem Machine.ExecShape.eq_raise_of_faulted {i : Instr} {s t : State} {cause : FaultCause} {pc : Word}
    (h : ExecShape i s t) (hrun : s.status = .running) (hf : t.status = .faulted cause pc) :
    pc = s.pc ∧ t = raise cause s := by
  cases h with
  | raised c => exact eq_raise_of_raise_faulted hf
  | wrote | stored | went | passed | linked => simp [hrun] at hf

theorem Machine.eq_raise_of_step_faulted {s t : State} {cause : FaultCause} {pc : Word} (h : step s = .next t)
    (hf : t.status = .faulted cause pc) : pc = s.pc ∧ t = raise cause s := by
  obtain ⟨hrun, ⟨-, rfl⟩ | ⟨-, c, -, rfl⟩ | ⟨-, i, -, hexec⟩⟩ := step_cases h
  · cases hf
  · exact eq_raise_of_raise_faulted hf
  · exact (exec_cases hexec).eq_raise_of_faulted hrun hf

/-- Settles O13: the state after is the `raise` of the state before, and a `Faulted` state has no next one. -/
theorem faultsArePrecise : Obligations.FaultsArePrecise := by
  intro s t cause pc h hf
  obtain ⟨hpc, ht⟩ := eq_raise_of_step_faulted h hf
  refine ⟨hpc, ht, fun u hu => ?_⟩
  rw [step_of_faulted hf] at hu
  cases hu

end Sys2Proof
end

section
/-!
The statements about the run and its host (70_reset_and_hazards.md R242 to R247; 95_test_vectors.md 1.1). A running state
always has a next one: the `Halted` state at `HALT_PC`, else a fault of the fetch or what the instruction answers. No way
to end touches the platform, and a word the host loads at the pc is what the fetch reads there.
-/

namespace Sys2Proof

open Machine Claims

/-! ### The words the source prints (R71 to R91) -/

/-- Settles O5: ten fixed words and the one refused, each decoded. -/
theorem printedWordsDecode : Obligations.PrintedWordsDecode := by
  unfold Obligations.PrintedWordsDecode
  decide

/-! ### The end of a run (R246) -/

theorem Machine.step_at_halt {s : State} (hrun : s.status = .running) (hhalt : s.pc = s.platform.haltPc) :
    step s = .next (haltRun s) := by
  simp [step, hrun, atHalt, hhalt]

/-- Settles O10: a running step looks for `HALT_PC` before it fetches. -/
theorem haltPcEndsTheRun : Obligations.HaltPcEndsTheRun :=
  fun _ => step_at_halt

/-! ### Which states have a next one (R245, U11) -/

theorem Claims.Steps.exists_next {s : State} (h : Steps s) : ∃ t, step s = .next t := by
  cases hf : fetchInstr s with
  | error c => exact ⟨_, h.step_eq_faultedWith hf⟩
  | ok i =>
    obtain ⟨t, ht, -⟩ := exec_shape i s
    exact ⟨t, (h.step_eq_exec hf).trans ht⟩

theorem Machine.exists_next_of_running {s : State} (hrun : s.status = .running) : ∃ t, step s = .next t := by
  by_cases hhalt : s.pc = s.platform.haltPc
  · exact ⟨_, step_at_halt hrun hhalt⟩
  · exact Steps.exists_next ⟨hrun, hhalt⟩

/-- Every state, by its status, answers a next state or a fault. -/
theorem Machine.step_ne_refused (s : State) (r : Refusal) : step s ≠ .refused r := by
  cases hs : s.status with
  | running =>
    obtain ⟨t, ht⟩ := exists_next_of_running hs
    simp [ht]
  | halted => simp [step_of_halted hs]
  | faulted cause pc => simp [step_of_faulted hs]

/-- Settles O12: a running state steps whatever it fetches, and only a running one does (`step_cases`). -/
theorem exactlyRunningStatesStep : Obligations.ExactlyRunningStatesStep := by
  refine fun s => ⟨⟨exists_next_of_running, fun ⟨t, ht⟩ => ?_⟩, step_ne_refused s⟩
  obtain ⟨hrun, -⟩ := step_cases ht
  exact hrun

/-! ### The platform is fixed (R247) -/

theorem Machine.ExecShape.platform_eq {i : Instr} {s t : State} (h : ExecShape i s t) : t.platform = s.platform := by
  cases h with
  | raised | wrote | stored | went | passed | linked => simp

/-- Settles O18, by the three ways a step can end. -/
theorem stepKeepsPlatform : Obligations.StepKeepsPlatform := by
  intro s t h
  obtain ⟨-, ⟨-, rfl⟩ | ⟨-, c, -, rfl⟩ | ⟨-, i, -, hexec⟩⟩ := step_cases h
  · exact haltRun_platform s
  · exact raise_platform c s
  · exact (exec_cases hexec).platform_eq

/-! ### The host's load at the pc (R242, R70) -/

/-- R41: the bytes of a word, put together again. -/
theorem decodeBytes_bytesOfWord (w : Insn) : decodeBytes (bytesOfWord w) = (decode w).map (·, []) := by
  have hw : wordOfBytes (w.extractLsb' 0 8) (w.extractLsb' 8 8) (w.extractLsb' 16 8) (w.extractLsb' 24 8) = w := by
    simp only [wordOfBytes]
    rw [extractLsb'_append_extractLsb'_adjacent w 16 8 8, extractLsb'_append_extractLsb'_adjacent w 8 8 16,
      extractLsb'_append_extractLsb'_adjacent w 0 8 24]
    simp
  simp only [bytesOfWord, decodeBytes, hw]
  cases decode w <;> rfl

theorem decodeTableWord_eq_some {nbits w : Nat} {i : Instr} :
    decodeTableWord nbits w = some i ↔ nbits ≤ 32 ∧ decode (tableWord nbits w) = .ok i := by
  unfold decodeTableWord
  rw [decodeBytes_bytesOfWord]
  cases decode (tableWord nbits w) <;> simp [Except.map]

/-- What a load at the pc writes there is what the fetch reads. -/
theorem Claims.wordAtPc_placeWord (s : State) (w : Insn) : wordAtPc (s.placeWord s.pc w) = w := by
  have hread : w = (s.mem.write s.pc.toNat w 4).read s.pc.toNat 4 := by
    refine (Memory.eq_read_iff (n := 4)).mpr fun k hk => ?_
    have hin : s.pc.toNat ≤ s.pc.toNat + k ∧ s.pc.toNat + k < s.pc.toNat + 4 := by omega
    rw [Memory.readByte_write, if_pos hin, Nat.add_sub_cancel_left]
  exact (Memory.read_four ..).symm.trans hread.symm

/-- A load is no store of the run (R31), so the fetch may follow it. -/
theorem Claims.codeUnwritten_placeWord (s : State) (w : Insn) : CodeUnwritten (s.placeWord s.pc w) := by
  intro k hk hmem
  obtain ⟨-, hout⟩ := AddrSet.mem_eraseRange.mp hmem
  exact hout ⟨Nat.le_add_right _ _, Nat.add_lt_add_left hk _⟩

/-- Settles O21: the placed word is unwritten code, it is the word at the pc, and it decodes. -/
theorem placedWordRunsNext : Obligations.PlacedWordRunsNext := by
  intro s w i hs hpc hv hd
  obtain ⟨-, hdecode⟩ := decodeTableWord_eq_some.mp hd
  refine stepRunsDecodedInstruction (s.withFetchWord 32 w) i hs hpc hv (codeUnwritten_placeWord s _) ?_
  rwa [State.withFetchWord, wordAtPc_placeWord]

end Sys2Proof
end
